-- ==== Sys2Proof/Word.lean ====
section
/-! DEFINITION. The word types of the Whirlpool-512 hash engine (R5, R6). Every value is unsigned and every
operation wraps at its width; the byte and bit-field helpers stand in Machine/Ops.lean. -/

namespace Sys2Proof

/-- One byte (R7). -/
abbrev Byte := BitVec 8

/-- A host register, a command word (R5 REG_WIDTH, R56). -/
abbrev Word32 := BitVec 32

/-- WORD: every HashState, block, round-key and cipher-state word (R5). -/
abbrev Word64 := BitVec 64

/-- NWORDS words of 64 bits: `H`, and inside a compression `B`, `S` and `K` (R5, R12, R24). -/
abbrev Words := Vector Word64 8

/-- 64 bytes: the working block `W` (R14) and the `DIGEST` register (R21). Byte 0 comes first. -/
abbrev Block := Vector Byte 64

/-- LEN_BITS: the big-endian bit-length counter as one unsigned number (R5, R16). -/
abbrev Length := BitVec 256

end Sys2Proof
end

