-- ==== Sys2Proof/Syntax.lean ====
section
/-! DEFINITION. What the agents can ask of the engine: the commands (one constructor per row of the opcode table),
the bus accesses of a host program, and the turns of the one global order of accesses, engine steps and resets. -/

namespace Sys2Proof

/-- The commands (R57). Each constructor is one row of spec/opcode_table.json. -/
inductive Instr where
  /-- NOP, word 0x00000000 (R118). -/
  | nop
  /-- INIT, word 0x01000000 (R119). -/
  | init
  /-- APPEND of `n` bits taken from DINL, word 0x02000000 + n (R82). -/
  | append (n : Nat)
  /-- FINALIZE, word 0x03000000 (R105). -/
  | final
deriving DecidableEq, Repr

/-- One item of a host program (R10, R66, R71). `addr` is the host address, `width` the access width in bytes. -/
inductive HostOp where
  /-- `MemRead(addr, width)`. -/
  | read (addr width : Nat)
  /-- `MemWrite(addr, width, value)`. The value of an access of another width than 32 bits is never used (R41). -/
  | write (addr width : Nat) (value : Word32)
  /-- `wait`: repeat a read of STATUS until its bit 0 (BUSY) reads 0 (R66). -/
  | wait
deriving DecidableEq, Repr

/-- Who moves next in the one global order of atomic events (R47, R54, R55, R152). -/
inductive Turn where
  /-- The engine: the pending command completes, if there is one (R124). -/
  | engine
  /-- Bus master number `k` makes its next access. -/
  | host (k : Nat)
  /-- The reset event (R152). -/
  | reset
deriving DecidableEq, Repr

end Sys2Proof
end

