-- ==== Sys2Proof/Machine/State.lean ====
section
/-! DEFINITION. The state: the engine's record exactly as R33 lists it, and beside it the agents that act on it
(R55): the bus masters with their remaining accesses, and the order in which the agents move. -/

namespace Sys2Proof.Machine

/-- The phase PH (R17). -/
inductive Phase where
  /-- The engine is accepting message bits. -/
  | accum
  /-- A FINALIZE has completed. -/
  | done
deriving DecidableEq, Repr

/-- The four error conditions (R135). -/
inductive ErrCode where
  /-- ERR_OP (R136). -/
  | op
  /-- ERR_CNT (R137). -/
  | cnt
  /-- ERR_SEQ (R139). -/
  | seq
  /-- ERR_OVR (R140). -/
  | ovr
deriving DecidableEq, Repr

/-- The engine's state record (R33): these fields and nothing else. -/
structure Engine where
  /-- HashState `H[0..7]` (R12). -/
  h : Words
  /-- WorkingBlock `W` (R14). -/
  w : Block
  /-- BufferCursor `NB`, a 9-bit count (R15). -/
  nb : BitVec 9
  /-- BitLengthCounter `LEN` (R16). -/
  len : Length
  /-- Phase `PH` (R17). -/
  ph : Phase
  /-- A command is accepted and not yet complete (R18). -/
  busy : Bool
  /-- The latched command word (R18). -/
  cmdl : Word32
  /-- The copy of DIN latched at acceptance (R18). -/
  dinl : Word64
  /-- The data-input register `DIN` (R19). -/
  din : Word64
  /-- The `DIGEST` register, byte 0 first (R21). -/
  digest : Block
  /-- DIGEST holds a digest produced since reset (R22). -/
  dv : Bool
  /-- Sticky flag ERR_OP (R23). -/
  errOp : Bool
  /-- Sticky flag ERR_CNT (R23). -/
  errCnt : Bool
  /-- Sticky flag ERR_SEQ (R23). -/
  errSeq : Bool
  /-- Sticky flag ERR_OVR (R23). -/
  errOvr : Bool
deriving DecidableEq, Repr

/-- The reset values of R31. CMDL and DINL are unspecified there and unread while BUSY = 0: DESIGN CHOICE 0 (log 4). -/
def Engine.reset : Engine where
  h := Vector.replicate 8 0
  w := Vector.replicate 64 0
  nb := 0
  len := 0
  ph := .accum
  busy := false
  cmdl := 0
  dinl := 0
  din := 0
  digest := Vector.replicate 64 0
  dv := false
  errOp := false
  errCnt := false
  errSeq := false
  errOvr := false

/-- A bus master (R2, R54): its remaining accesses, and the address and value of every read it has made, oldest
first (R166). -/
structure Master where
  program : List HostOp
  reads : List (Nat × Word32)
deriving DecidableEq, Repr

/-- The whole state: the engine, the base of its window (R34), the masters, and who moves next (R47, R55). -/
structure State where
  /-- The engine's record (R33). -/
  engine : Engine
  /-- ENGINE_BASE, the platform's parameter (R5, R34); no step writes it (log 5). -/
  engineBase : Nat
  /-- The bus masters (R54). -/
  masters : List Master
  /-- The coming turns, next first; the turns before an `engine` turn are a command's latency (R164, log 1). -/
  turns : List Turn
deriving DecidableEq, Repr

/-- Why the machine stops. The engine itself has no faults (R143, R145): an error of a command is a next state. -/
inductive Fault where
  /-- A bus access outside the window of the engine, of which the spec says nothing (R45). Raised by a host turn.
  Safe: the model stops where another device may go on (log 6). -/
  | outsideWindow
deriving DecidableEq, Repr

/-- Why an instruction has no meaning. -/
inductive Refusal where
  /-- An instruction of the opcode table that the model gives no meaning. No arm of exec answers so. Safe. -/
  | notModelled (mnemonic : String)
deriving DecidableEq, Repr

/-- The machine right after reset (R152): the engine at the values of R31; no master has a program and no turn is
planned, so the engine is idle (log 8). The window base is the platform's: DESIGN CHOICE 0 (log 5). -/
def State.reset : State where
  engine := Engine.reset
  engineBase := 0
  masters := []
  turns := []

end Sys2Proof.Machine
end

