-- ==== Sys2Proof/Machine/Flags.lean ====
section
/-! DEFINITION. The STATUS register (R20): its value, its write-1-to-clear bits, and the setting of an error flag.
No other command computes a flag (R28). -/

namespace Sys2Proof.Machine

/-- The code of an error condition, which is the bit index of its flag in STATUS (R135). -/
def ErrCode.bit : ErrCode → Nat
  | .op => 4
  | .cnt => 5
  | .seq => 6
  | .ovr => 7

/-- The value of an error flag. -/
def Engine.flag (e : Engine) : ErrCode → Bool
  | .op => e.errOp
  | .cnt => e.errCnt
  | .seq => e.errSeq
  | .ovr => e.errOvr

/-- One error flag set, everything else as it was (R136, R137, R139, R140). -/
def Engine.setFlag (e : Engine) : ErrCode → Engine
  | .op => { e with errOp := true }
  | .cnt => { e with errCnt := true }
  | .seq => { e with errSeq := true }
  | .ovr => { e with errOvr := true }

/-- STATUS as the host reads it (R125): `zext_32` of ERR_OVR, ERR_SEQ, ERR_CNT, ERR_OP, 0, DV, DONE, BUSY from bit 7
down. -/
def Engine.status (e : Engine) : Word32 :=
  BitVec.setWidth 32 (BitVec.ofBool e.errOvr ++ BitVec.ofBool e.errSeq ++ BitVec.ofBool e.errCnt ++ BitVec.ofBool e.errOp
    ++ 0#1 ++ BitVec.ofBool e.dv ++ BitVec.ofBool (e.ph == .done) ++ BitVec.ofBool e.busy)

/-- The write of STATUS: each error flag whose bit is 1 in `v` is cleared; the other bits are ignored (R122). -/
def Engine.clearFlags (e : Engine) (v : Word32) : Engine :=
  { e with
    errOp := e.errOp && !v.getLsbD ErrCode.op.bit
    errCnt := e.errCnt && !v.getLsbD ErrCode.cnt.bit
    errSeq := e.errSeq && !v.getLsbD ErrCode.seq.bit
    errOvr := e.errOvr && !v.getLsbD ErrCode.ovr.bit }

end Sys2Proof.Machine
end

