-- ==== Sys2Proof/Machine/Ops.lean ====
section
/-! DEFINITION. The shared operations: byte and word conversions (R7, R8), the views of the working block, the
length counter and the digest (R14, R16, R21), the command latch (R18), and the report of an error (R10, R138),
which is all this hardware has for an exception: it saves nothing, changes no mode and has no return (R145, R146). -/

namespace Sys2Proof.Machine

/-! Byte and word conversions. -/

/-- `byte_j(v)` = `v[63-8j : 56-8j]`: byte 0 is the most significant (R7). -/
def byteOf (j : Nat) (v : Word64) : Byte := v.extractLsb' (56 - 8 * j) 8

/-- `be64(b0..b7)`, the big-endian word of 8 bytes (R7). -/
def be64 (b : Fin 8 → Byte) : Word64 := b 0 ++ b 1 ++ b 2 ++ b 3 ++ b 4 ++ b 5 ++ b 6 ++ b 7

/-- `ROTR64(v, n)` (R8). -/
def rotr64 (v : Word64) (n : Nat) : Word64 := v.rotateRight n

/-- Bit `q` of a byte, counted from the most significant (R14). -/
def byteBit (b : Byte) (q : Nat) : Bool := b.getMsbD q

/-- A byte with bit `q`, counted from the most significant, set to `m`. -/
def setByteBit (b : Byte) (q : Nat) (m : Bool) : Byte :=
  (b &&& ~~~(0x80#8 >>> q)) ||| (if m then 0x80#8 >>> q else 0)

/-! The three views of a 64-byte block (R14). -/

/-- A block of zeros. -/
def zeroBlock : Block := Vector.replicate 64 0

/-- `W.byte[k]`, for k in 0..63 (R14). -/
def blockByte (w : Block) (k : Nat) : Byte := w[k]?.getD 0

/-- `W.byte[k] <- b`. -/
def setBlockByte (w : Block) (k : Nat) (b : Byte) : Block := w.setIfInBounds k b

/-- `W.bit[p]`, which is bit `7 - (p mod 8)` of `W.byte[p div 8]`, for p in 0..511 (R14). -/
def blockBit (w : Block) (p : Nat) : Bool := byteBit (blockByte w (p / 8)) (p % 8)

/-- `W.bit[p] <- m`. -/
def setBlockBit (w : Block) (p : Nat) (m : Bool) : Block :=
  setBlockByte w (p / 8) (setByteBit (blockByte w (p / 8)) (p % 8) m)

/-- `W.word[i]`, the big-endian word of bytes 8i to 8i+7 (R14, R38 a). -/
def blockWord (w : Block) (i : Nat) : Word64 := be64 fun k => blockByte w (8 * i + k)

/-- Bytes `lo` to `hi - 1` set to 0, every other byte as it was. -/
@[irreducible] def zeroBytes (w : Block) (lo hi : Nat) : Block :=
  Vector.ofFn fun k : Fin 64 => if lo ≤ k.val ∧ k.val < hi then 0 else w[k]

/-! Views of the other registers. -/

/-- `LEN.byte[k]`, for k in 0..31: byte 0 is the most significant (R16). -/
def lenByte (len : Length) (k : Nat) : Byte := len.extractLsb' (248 - 8 * k) 8

/-- The big-endian serialization of the 8 words of HashState: `DIGEST.byte[8i+k] = byte_k(H[i])` (R21, R112). -/
@[irreducible] def serWords (h : Words) : Block :=
  Vector.ofFn fun p : Fin 64 => byteOf (p.val % 8) (h[p.val / 8]'(by omega))

/-- The block whose bytes 32 to 63 are `LEN.byte[0..31]`, every other byte as it was (R110). -/
@[irreducible] def withLength (w : Block) (len : Length) : Block :=
  Vector.ofFn fun p : Fin 64 => if p.val < 32 then w[p] else lenByte len (p.val - 32)

/-- `DIGEST_k`, bytes 4k to 4k+3, byte 4k in bits 31:24 (R39, R127). -/
def digestReg (d : Block) (k : Nat) : Word32 :=
  blockByte d (4 * k) ++ blockByte d (4 * k + 1) ++ blockByte d (4 * k + 2) ++ blockByte d (4 * k + 3)

/-- `DIN_HI = DIN[63:32]` (R39). -/
def dinHi (d : Word64) : Word32 := d.extractLsb' 32 32

/-- `DIN_LO = DIN[31:0]` (R39). -/
def dinLo (d : Word64) : Word32 := d.extractLsb' 0 32

/-- The eight zero words. -/
def zeroWords : Words := Vector.replicate 8 0

/-! The command latch and the report of an error. -/

/-- Acceptance of a word: `CMDL <- w`, `DINL <- DIN`, `BUSY <- 1` (R18, R123). -/
def Engine.latch (e : Engine) (w : Word32) : Engine :=
  { e with cmdl := w, dinl := e.din, busy := true }

/-- `raise ERR_x` (R10): the sticky flag is set and nothing else changes; BUSY falls with the completion of the
command, as for every command (R138). -/
def Engine.raise (e : Engine) (c : ErrCode) : Engine := e.setFlag c

/-- The end of a command: `BUSY <- 0` (R124). -/
def Engine.complete (e : Engine) : Engine := { e with busy := false }

/-- The state with its engine changed. -/
def State.mapEngine (s : State) (f : Engine → Engine) : State := { s with engine := f s.engine }

/-- The state with the command of its engine ended (R124). -/
def State.complete (s : State) : State := s.mapEngine Engine.complete

/-- The state in which the pending command is rejected with an error (R138). -/
def State.reject (s : State) (c : ErrCode) : State := (s.mapEngine fun e => e.raise c).complete

end Sys2Proof.Machine
end

