-- ==== Sys2Proof/Config.lean ====
section
/-! DEFINITION. The engine's fixed parameters (R5). The two OPEN parameters are no constants here: ENGINE_BASE is
the field `engineBase` of State, which no step writes, and LAT_CMD is the number of turns that the list `turns` of
State puts between a command's acceptance and the engine's turn. A statement about every state therefore holds for
every value of both. The spec leaves no value of a result open (R55), so there is no opaque constant. -/

namespace Sys2Proof.Config

/-- WINDOW: the size in bytes of the host's register window (R5, R34). -/
def windowBytes : Nat := 0x100

/-- The only access width the engine defines, in bytes (R41). -/
def accessBytes : Nat := 4

/-- BLOCK_BITS (R5). -/
def blockBits : Nat := 512

/-- ROUNDS of one compression (R5, R102). -/
def rounds : Nat := 10

/-- MAX_APPEND_BITS: the largest legal count of one APPEND (R5, R59). -/
def maxAppendBits : Nat := 64

/-- The byte offset of the length field in the final block, and its size: "reserve the trailing 32 bytes"
(R109, R110). -/
def lengthOffset : Nat := 32

end Sys2Proof.Config
end

