-- ==== Sys2Proof/WellFormed.lean ====
section
/-! DEFINITION. Which commands and host operations the spec gives a meaning. -/

namespace Sys2Proof

/-- A legal command: APPEND takes 0 to 64 bits (R59, R64); the other commands have no operand. -/
def Instr.wellFormed : Instr → Bool
  | .nop => true
  | .init => true
  | .append n => n ≤ Config.maxAppendBits
  | .final => true

/-- The address lies in the register window based at `base` (R34). -/
def inWindow (base addr : Nat) : Bool := base ≤ addr && addr < base + Config.windowBytes

/-- A host operation that starts inside the window of the engine based at `base` (R34); of others the spec says
nothing (R45). -/
def HostOp.inWindow (base : Nat) : HostOp → Bool
  | .read addr _ => Sys2Proof.inWindow base addr
  | .write addr _ _ => Sys2Proof.inWindow base addr
  | .wait => true

/-- An access of the only form the engine defines: 32 bits wide, at an offset that is a multiple of 4 (R41). -/
def HostOp.regular (base : Nat) : HostOp → Bool
  | .read addr width => width == Config.accessBytes && (addr - base) % 4 == 0
  | .write addr width _ => width == Config.accessBytes && (addr - base) % 4 == 0
  | .wait => true

end Sys2Proof
end

