-- ==== Sys2Proof/Machine/Bus.lean ====
section
/-! DEFINITION. The host's register accesses (20_memory.md, 44_control.md section 2). -/

namespace Sys2Proof.Machine

/-- What stands at a multiple of 4 in the register window (R35). -/
inductive Reg where
  | cmd
  | status
  | dinHi
  | dinLo
  | digest (k : Nat)
  | reserved
deriving DecidableEq, Repr

/-- The register map (R35): the register at an offset that is a multiple of 4. -/
def regAt (off : Nat) : Reg :=
  if off = 0x000 then .cmd
  else if off = 0x004 then .status
  else if off = 0x008 then .dinHi
  else if off = 0x00C then .dinLo
  else if 0x040 ≤ off ∧ off < 0x080 then .digest ((off - 0x040) / 4)
  else .reserved

/-- The value a register reads as; no read has a side effect (R36, R125, R126, R127, R128). -/
def Engine.readReg (e : Engine) : Reg → Word32
  | .cmd => 0
  | .status => e.status
  | .dinHi => dinHi e.din
  | .dinLo => dinLo e.din
  | .digest k => digestReg e.digest k
  | .reserved => 0

/-- The write of CMD (R123): acceptance, or the drop of the word with ERR_OVR while BUSY = 1 (R140). -/
def Engine.writeCmd (e : Engine) (w : Word32) : Engine := if e.busy then e.raise .ovr else e.latch w

/-- The write of a register (R36, R120, R121, R122, R123, R129). -/
def Engine.writeReg (e : Engine) (r : Reg) (v : Word32) : Engine :=
  match r with
  | .cmd => e.writeCmd v
  | .status => e.clearFlags v
  | .dinHi => { e with din := v ++ dinLo e.din }
  | .dinLo => { e with din := dinHi e.din ++ v }
  | .digest _ => e
  | .reserved => e

/-- A read at an offset in the window: an access of another width or alignment reads 0 (R41). -/
def Engine.readAt (e : Engine) (off width : Nat) : Word32 :=
  if width = Config.accessBytes ∧ off % 4 = 0 then e.readReg (regAt off) else 0

/-- A write at an offset in the window: an access of another width or alignment changes nothing (R41). -/
def Engine.writeAt (e : Engine) (off width : Nat) (v : Word32) : Engine :=
  if width = Config.accessBytes ∧ off % 4 = 0 then e.writeReg (regAt off) v else e

/-- Master number `k` replaced. -/
def State.setMaster (s : State) (k : Nat) (m : Master) : State := { s with masters := s.masters.set k m }

/-- `MemRead(addr, width)` by master `k`, `rest` being its program after it (R10): the master gets the value. Outside
the window it stops (log 6). -/
def hostRead (s : State) (k : Nat) (m : Master) (rest : List HostOp) (addr width : Nat) :
    Host.Outcome State Fault Refusal :=
  if inWindow s.engineBase addr then
    .next (s.setMaster k ⟨rest, m.reads ++ [(addr, s.engine.readAt (addr - s.engineBase) width)]⟩)
  else .fault .outsideWindow

/-- `MemWrite(addr, width, v)` by master `k` (R10). Outside the window it stops (log 6). -/
def hostWrite (s : State) (k : Nat) (m : Master) (rest : List HostOp) (addr width : Nat) (v : Word32) :
    Host.Outcome State Fault Refusal :=
  if inWindow s.engineBase addr then
    .next ((s.mapEngine fun e => e.writeAt (addr - s.engineBase) width v).setMaster k ⟨rest, m.reads⟩)
  else .fault .outsideWindow

/-- One poll of `wait` by master `k`: a read of STATUS; the program goes on when BUSY reads 0 (R66). -/
def hostPoll (s : State) (k : Nat) (m : Master) (rest : List HostOp) : State :=
  let v := s.engine.status
  s.setMaster k ⟨if v.getLsbD 0 then .wait :: rest else rest, m.reads ++ [(s.engineBase + 0x004, v)]⟩

/-- The turn of master `k`: its next access. A master that does not exist or has ended its program does nothing
(R166, log 3). -/
def hostTurn (s : State) (k : Nat) : Host.Outcome State Fault Refusal :=
  match s.masters[k]? with
  | none => .next s
  | some m =>
    match m.program with
    | [] => .next s
    | .read addr width :: rest => hostRead s k m rest addr width
    | .write addr width v :: rest => hostWrite s k m rest addr width v
    | .wait :: rest => .next (hostPoll s k m rest)

end Sys2Proof.Machine
end

