-- ==== Sys2Proof/Decode.lean ====
section
/-! DEFINITION. The decoder of R60, total on every 32-bit word, and the encoder of R56, R57 and R64. -/

namespace Sys2Proof

/-- The result of decoding a word: one of the two rejections by name, or a command (R60). -/
inductive Decoded where
  /-- Reserved opcode, nonzero RSV, or nonzero CNT outside APPEND: rejected with ERR_OP (R136). -/
  | illegalOp
  /-- APPEND with CNT above 64: rejected with ERR_CNT (R137). -/
  | illegalCnt
  /-- A legal command. -/
  | command (i : Instr)
deriving DecidableEq, Repr

/-- OP, bits 31:24 (R56). -/
def opField (w : Word32) : Byte := w.extractLsb' 24 8

/-- RSV, bits 23:7 (R56). -/
def rsvField (w : Word32) : BitVec 17 := w.extractLsb' 7 17

/-- CNT, bits 6:0 (R56). -/
def cntField (w : Word32) : BitVec 7 := w.extractLsb' 0 7

/-- Decoding, with the checks in the order of R60. It does not look at the phase. -/
def decode (w : Word32) : Decoded :=
  if 0x03 < (opField w).toNat ∨ rsvField w ≠ 0 then .illegalOp
  else if opField w ≠ 0x02 ∧ cntField w ≠ 0 then .illegalOp
  else if opField w = 0x02 ∧ Config.maxAppendBits < (cntField w).toNat then .illegalCnt
  else if opField w = 0x00 then .command .nop
  else if opField w = 0x01 then .command .init
  else if opField w = 0x02 then .command (.append (cntField w).toNat)
  else .command .final

/-- The command that a result stands for, if it is one. -/
def Decoded.instr? : Decoded → Option Instr
  | .illegalOp => none
  | .illegalCnt => none
  | .command i => some i

/-- The opcode of a command (R57). -/
def Instr.opcode : Instr → Byte
  | .nop => 0x00
  | .init => 0x01
  | .append _ => 0x02
  | .final => 0x03

/-- The CNT field of a command: the bit count for APPEND, 0 for every other (R59). -/
def Instr.cnt : Instr → BitVec 7
  | .nop => 0
  | .init => 0
  | .append n => BitVec.ofNat 7 n
  | .final => 0

/-- The one format CMD: OP, then RSV = 0, then CNT (R56). -/
def encodeFields (op : Byte) (cnt : BitVec 7) : Word32 := op ++ 0#17 ++ cnt

/-- The word of a command (R64). -/
def encode (i : Instr) : Word32 := encodeFields i.opcode i.cnt

/-- A word numbered as the opcode table numbers it, of `nbits` bits with zeros above. A command is one 32-bit value
(R56) and which byte lane carries which bit is the platform's (R40), so the number is the value written to CMD. -/
def tableWord (nbits w : Nat) : Word32 := BitVec.ofNat 32 (w % 2 ^ nbits)

/-- The command that the decoder reads from a word of the opcode table. -/
def decodeTableWord (nbits w : Nat) : Option Instr := (decode (tableWord nbits w)).instr?

end Sys2Proof
end

