-- ==== Sys2Proof/Machine/Control.lean ====
section
/-! DEFINITION. The control commands NOP and INIT (44_control.md). -/

namespace Sys2Proof.Machine

/-- INIT's effect: a fresh accumulator; DIGEST, DV, DIN and the error flags are not changed (R119). -/
def Engine.init (e : Engine) : Engine := { e with h := zeroWords, w := zeroBlock, nb := 0, len := 0, ph := .accum }

/-- The meaning of `nop`: no state change (R118). -/
def execNop (s : State) : Host.Outcome State Fault Refusal := .next s

/-- The meaning of `init` (R119). -/
def execInit (s : State) : Host.Outcome State Fault Refusal := .next (s.mapEngine Engine.init)

end Sys2Proof.Machine
end

