-- ==== Sys2Proof/Machine/Compress.lean ====
section
/-! DEFINITION. The internal operation COMPRESS (42_compression.md): ten rounds of a key-scheduled
substitution-permutation transform in Miyaguchi-Preneel feedback. -/

namespace Sys2Proof.Machine

/-- The XOR of eight words, one for each j (R95). -/
def xor8 (f : Fin 8 → Word64) : Word64 :=
  f 0 ^^^ f 1 ^^^ f 2 ^^^ f 3 ^^^ f 4 ^^^ f 5 ^^^ f 6 ^^^ f 7

/-- RHO, the gather-substitute-XOR network: word i is the XOR over j of `Cj[byte_j(V[(i - j) mod 8])]` (R95). The
subtraction is that of `Fin 8`, modulo 8. -/
def rho (v : Words) : Words := Vector.ofFn fun i : Fin 8 => xor8 fun j => cTable j (byteOf j v[i - j])

/-- KEYSTEP: the next round key; the round constant enters word 0 only (R97, R102). -/
def keyStep (k : Words) (r : Nat) : Words :=
  Vector.ofFn fun i : Fin 8 => if i = 0 then (rho k)[i] ^^^ rc r else (rho k)[i]

/-- STATESTEP: the same network on the state, then the new round key (R98). -/
def stateStep (s k : Words) : Words := Vector.ofFn fun i : Fin 8 => (rho s)[i] ^^^ k[i]

/-- The compression registers, which exist only during one compression (R24, log 9). -/
structure CompressRegs where
  /-- The parsed block. -/
  b : Words
  /-- The cipher state. -/
  s : Words
  /-- The round key. -/
  k : Words
  /-- The number of rounds done. -/
  r : Nat
deriving DecidableEq, Repr

/-- Parse and whitening: `B[i] = W.word[i]`, `K[i] = H[i]`, `S[i] = B[i] ⊕ H[i]` (R96). -/
def whiten (w : Block) (h : Words) : CompressRegs :=
  let b : Words := Vector.ofFn fun i : Fin 8 => blockWord w i
  { b := b, s := Vector.ofFn fun i : Fin 8 => b[i] ^^^ h[i], k := h, r := 0 }

/-- Round `r + 1`: the key step, then the state step with the new key (R94). -/
def cipherRound (c : CompressRegs) : CompressRegs :=
  let k := keyStep c.k (c.r + 1)
  { c with k := k, s := stateStep c.s k, r := c.r + 1 }

/-- `n` rounds (R94). -/
def cipherRounds : Nat → CompressRegs → CompressRegs
  | 0, c => c
  | n + 1, c => cipherRounds n (cipherRound c)

/-- The feed-forward `H'[i] = H[i] ⊕ S[i] ⊕ B[i]` (R99). -/
def feedForward (h : Words) (c : CompressRegs) : Words := Vector.ofFn fun i : Fin 8 => h[i] ^^^ c.s[i] ^^^ c.b[i]

/-- COMPRESS(W, H): the new HashState (R94). It is marked irreducible so that no proof unfolds ten rounds unasked. -/
@[irreducible] def compress (w : Block) (h : Words) : Words := feedForward h (cipherRounds Config.rounds (whiten w h))

end Sys2Proof.Machine
end

