-- ==== Sys2Proof/Machine/Operands.lean ====
section
/-! DEFINITION. The operands of APPEND, the only command that has any (R62): the count `n` and the `n` bits of DINL
from the most significant down. A host lays bits and bytes into DIN the same way (R63, R83). -/

namespace Sys2Proof.Machine

/-- Message bit `k` of the data operand: `DINL[63-k]` (R62, R82). -/
def dataBit (d : Word64) (k : Nat) : Bool := d.getMsbD k

/-- The chunk of an APPEND of `n` bits: `DINL[63] DINL[62] … DINL[64-n]` (R83). -/
def chunk (n : Nat) (d : Word64) : List Bool := (List.range n).map (dataBit d)

/-- Bits laid left-justified into a value of width `n`, zeros below them: the first bit is the most significant one
(R62, R63, R68). -/
def leftJustify (n : Nat) (bits : List Bool) : BitVec n := BitVec.ofFnBE fun k => bits.getD k.val false

/-- The bits of a byte string, each byte most-significant bit first (R11). -/
def bitsOfBytes (bytes : List Byte) : List Bool := bytes.flatMap fun b => (List.range 8).map (byteBit b)

/-- The word that holds up to 8 bytes, padded on the right with zero bytes (R63, R67). -/
def packBytes (bytes : List Byte) : Word64 := be64 fun k => bytes.getD k.val 0

end Sys2Proof.Machine
end

