-- ==== Sys2Proof/Machine/Accumulator.lean ====
section
/-! DEFINITION. The bit accumulator and the APPEND command (41_accumulator.md). -/

namespace Sys2Proof.Machine

/-- The addition to the length counter, modulo 2^256 (R84). -/
def lenAdd (len : Length) (n : Nat) : Length := len + BitVec.ofNat 256 n

/-- BLOCK_DONE: compress the full block, clear it, and start again at bit 0 (R86). -/
def Engine.blockDone (e : Engine) : Engine := { e with h := compress e.w e.h, w := zeroBlock, nb := 0 }

/-- ABSORB of one message bit at the cursor; the block that becomes full is compressed (R85). -/
def Engine.absorb (e : Engine) (m : Bool) : Engine :=
  let e' := { e with w := setBlockBit e.w e.nb.toNat m }
  if e.nb.toNat + 1 = Config.blockBits then e'.blockDone else { e' with nb := e.nb + 1 }

/-- ABSORB of each bit of a chunk, in order (R82). -/
def Engine.absorbBits (e : Engine) (bits : List Bool) : Engine := bits.foldl Engine.absorb e

/-- APPEND of `n` bits of DINL (R82): in phase DONE it raises ERR_SEQ (R139). -/
def Engine.append (e : Engine) (n : Nat) : Engine :=
  match e.ph with
  | .done => e.raise .seq
  | .accum => { e with len := lenAdd e.len n }.absorbBits (chunk n e.dinl)

/-- The meaning of `append` (R82). -/
def execAppend (n : Nat) (s : State) : Host.Outcome State Fault Refusal := .next (s.mapEngine fun e => e.append n)

/-! The forms that the spec says are equivalent: the counter byte by byte, and the data byte by byte. -/

/-- `LEN.byte[i] <- b`. -/
def setLenByte (len : Length) (i : Nat) (b : Byte) : Length :=
  (len &&& ~~~((0xFF#256) <<< (248 - 8 * i))) ||| (b.setWidth 256 <<< (248 - 8 * i))

/-- LENADD for the bytes `i - 1` down to 0, with the carry and the rest of the count (R84). -/
def lenAddLoop : Nat → Length → Nat → Nat → Length
  | 0, len, _, _ => len
  | i + 1, len, v, carry =>
    let t := (lenByte len i).toNat + v % 256 + carry
    lenAddLoop i (setLenByte len i (BitVec.ofNat 8 (t % 256))) (v / 256) (t / 256)

/-- LENADD, byte by byte from the least significant (R84). -/
def lenAddBytes (len : Length) (n : Nat) : Length := lenAddLoop 32 len n 0

/-- `W.byte[k] <- W.byte[k] OR b`. -/
def orBlockByte (w : Block) (k : Nat) (b : Byte) : Block := setBlockByte w k (blockByte w k ||| b)

/-- The cursor advanced by `q` bits that end at a byte boundary, with BLOCK_DONE when the block is full (R87). -/
def Engine.fillTo (e : Engine) (q : Nat) : Engine :=
  if e.nb.toNat + q = Config.blockBits then e.blockDone else { e with nb := e.nb + BitVec.ofNat 9 q }

/-- One whole source byte, merged at the sub-byte offset `rem` (R87). -/
def Engine.absorbByte (e : Engine) (b : Byte) : Engine :=
  let r := e.nb.toNat % 8
  let e1 := { e with w := orBlockByte e.w (e.nb.toNat / 8) (b >>> r) }.fillTo (8 - r)
  { e1 with w := setBlockByte e1.w (e1.nb.toNat / 8) (b <<< (8 - r)), nb := e1.nb + BitVec.ofNat 9 r }

/-- A last partial group of `q < 8` bits, the top `q` bits of `b`, whose other bits are 0 (R87). -/
def Engine.absorbPartial (e : Engine) (b : Byte) (q : Nat) : Engine :=
  let r := e.nb.toNat % 8
  let e0 := { e with w := orBlockByte e.w (e.nb.toNat / 8) (b >>> r) }
  if r + q < 8 then { e0 with nb := e.nb + BitVec.ofNat 9 q }
  else
    let e1 := e0.fillTo (8 - r)
    { e1 with w := setBlockByte e1.w (e1.nb.toNat / 8) (b <<< (8 - r)), nb := e1.nb + BitVec.ofNat 9 (q - (8 - r)) }

end Sys2Proof.Machine
end

