-- ==== Sys2Proof/Machine/Finalizer.lean ====
section
/-! DEFINITION. The FINALIZE command: padding, the final compressions and the digest (43_finalizer.md). -/

namespace Sys2Proof.Machine

/-- F_PAD: the next unwritten bit becomes 1 (R107). -/
def Engine.padBit (e : Engine) : Engine := { e with w := setBlockBit e.w e.nb.toNat true }

/-- F_PAD's byte cursor: the byte after the one that holds the pad bit, 1..64 (R107). -/
def Engine.padCursor (e : Engine) : Nat := e.nb.toNat / 8 + 1

/-- F_SPILL: zero-fill from byte `fc` to the block boundary, compress, clear the block (R108). -/
def Engine.spill (e : Engine) (fc : Nat) : Engine :=
  { e with h := compress (zeroBytes e.w fc 64) e.h, w := zeroBlock }

/-- F_FILL: zero-fill from byte `fc` up to byte 32 (R109). -/
def Engine.fillToLength (e : Engine) (fc : Nat) : Engine := { e with w := zeroBytes e.w fc Config.lengthOffset }

/-- F_LEN: `W.byte[32 + k] <- LEN.byte[k]` for k = 0..31 (R110). -/
def Engine.writeLength (e : Engine) : Engine := { e with w := withLength e.w e.len }

/-- F_LAST: compress the final block (R111). -/
def Engine.compressLast (e : Engine) : Engine := { e with h := compress e.w e.h }

/-- F_OUT: latch the digest; DV <- 1, W <- 0, NB <- 0, PH <- DONE (R112, R113). -/
def Engine.output (e : Engine) : Engine :=
  { e with digest := serWords e.h, dv := true, w := zeroBlock, nb := 0, ph := .done }

/-- FINALIZE (R105): in phase DONE it raises ERR_SEQ (R139). -/
def Engine.finalize (e : Engine) : Engine :=
  match e.ph with
  | .done => e.raise .seq
  | .accum =>
    let fc := e.padCursor
    let padded := e.padBit
    let filled := if Config.lengthOffset < fc then (padded.spill fc).fillToLength 0 else padded.fillToLength fc
    filled.writeLength.compressLast.output

/-- The meaning of `final` (R105). -/
def execFinal (s : State) : Host.Outcome State Fault Refusal := .next (s.mapEngine Engine.finalize)

/-! The same procedure as the state machine of R106, step by step. A model may execute it as one function (R106). -/

/-- The state FS of the finalizer (R25, R106). -/
inductive FinState where
  | pad
  | spill
  | fill
  | len
  | last
  | out
  /-- The command has ended. -/
  | ended
deriving DecidableEq, Repr

/-- The finalizer while a FINALIZE executes: FS, FC (R25) and the engine it works on. -/
structure FinRegs where
  fs : FinState
  fc : Nat
  engine : Engine
deriving DecidableEq, Repr

/-- A FINALIZE that passes the phase check starts in F_PAD (R106). FC then holds any value `fc`, which F_PAD overwrites
unread: R25 leaves it open, and the model takes it as an argument (DESIGN CHOICE, log 23). -/
def FinRegs.start (fc : Nat) (e : Engine) : FinRegs := ⟨.pad, fc, e⟩

/-- One step of the state machine (R106). -/
def FinRegs.step (f : FinRegs) : FinRegs :=
  match f.fs with
  | .pad =>
    ⟨if Config.lengthOffset < f.engine.padCursor then .spill else .fill, f.engine.padCursor, f.engine.padBit⟩
  | .spill => ⟨.fill, 0, f.engine.spill f.fc⟩
  | .fill => ⟨.len, f.fc, f.engine.fillToLength f.fc⟩
  | .len => ⟨.last, f.fc, f.engine.writeLength⟩
  | .last => ⟨.out, f.fc, f.engine.compressLast⟩
  | .out => ⟨.ended, f.fc, f.engine.output⟩
  | .ended => f

/-- `n` steps of the state machine. -/
def FinRegs.run : Nat → FinRegs → FinRegs
  | 0, f => f
  | n + 1, f => FinRegs.run n f.step

/-- The number of compressions that one step of the state machine performs: F_SPILL and F_LAST one each (R106). -/
def FinRegs.compressions (f : FinRegs) : Nat := if f.fs = .spill ∨ f.fs = .last then 1 else 0

/-- The number of compressions in `n` steps. -/
def FinRegs.runCompressions : Nat → FinRegs → Nat
  | 0, _ => 0
  | n + 1, f => f.compressions + FinRegs.runCompressions n f.step

end Sys2Proof.Machine
end

