-- ==== Sys2Proof/Machine/Dispatch.lean ====
section
/-! DEFINITION. The effect of each command, the `case` of the engine step (R124). The end of the command, BUSY <- 0, is
the engine step's own (Machine/EngineStep.lean). -/

namespace Sys2Proof.Machine

def exec (i : Instr) (s : State) : Host.Outcome State Fault Refusal :=
  match i with
  | .nop => Sys2Proof.Machine.execNop s
  | .init => Sys2Proof.Machine.execInit s
  | .append n => Sys2Proof.Machine.execAppend n s
  | .final => Sys2Proof.Machine.execFinal s

end Sys2Proof.Machine
end

