-- ==== Sys2Proof/Machine/EngineStep.lean ====
section
/-! DEFINITION. The engine step (R124): decode the latched word, run the command or reject it, and let BUSY fall. -/

namespace Sys2Proof.Machine

/-- What follows a step that answered a next state. -/
def thenNext (o : Host.Outcome State Fault Refusal) (f : State → State) : Host.Outcome State Fault Refusal :=
  match o with
  | .next s => .next (f s)
  | .fault r => .fault r
  | .refused r => .refused r

/-- ENGINE_STEP, for a pending command (R124): one atomic transition. -/
def engineStep (s : State) : Host.Outcome State Fault Refusal :=
  match decode s.engine.cmdl with
  | .illegalOp => .next (s.reject .op)
  | .illegalCnt => .next (s.reject .cnt)
  | .command i => thenNext (exec i s) State.complete

/-- The engine's turn: the step is enabled exactly when BUSY = 1 (R55, R124); an idle engine keeps all state (R151). -/
def engineTurn (s : State) : Host.Outcome State Fault Refusal :=
  if s.engine.busy then engineStep s else .next s

end Sys2Proof.Machine
end

