-- ==== Sys2Proof/Machine/Schedule.lean ====
section
/-! DEFINITION. The one global order of host accesses, engine steps and reset events (R47, R55): who moves next, and
what its move does. -/

namespace Sys2Proof.Machine

/-- The reset event (R152): every element of the engine takes its reset value, whatever it was doing (R153). It is an
input of the block: the masters and the coming turns are not part of it (log 15). -/
def resetTurn (s : State) : State := s.mapEngine fun _ => Engine.reset

/-- One turn. -/
def runTurn (t : Turn) (s : State) : Host.Outcome State Fault Refusal :=
  match t with
  | .engine => engineTurn s
  | .host k => hostTurn s k
  | .reset => .next (resetTurn s)

/-- The first master that still has an access to make. -/
def firstReady : List Master → Option Nat
  | [] => none
  | m :: ms => if m.program.isEmpty then (firstReady ms).map (· + 1) else some 0

/-- Who moves next: the planned turn. With no turn planned a pending command completes (R165), else the first master
with an access left moves, else nobody does (log 2). -/
def State.mover (s : State) : Option Turn :=
  match s.turns with
  | t :: _ => some t
  | [] => if s.engine.busy then some .engine else (firstReady s.masters).map .host

/-- The state with its planned turn, if there is one, taken off the list. -/
def State.popTurn (s : State) : State := { s with turns := s.turns.tail }

/-- The next atomic event. When nobody moves the machine keeps all state (R151). -/
def advance (s : State) : Host.Outcome State Fault Refusal :=
  match s.mover with
  | some t => runTurn t s.popTurn
  | none => .next s

/-- The state in which the word `w` has just been accepted and the engine moves next (R123, R124, log 8). -/
def State.issue (s : State) (w : Word32) : State :=
  { s with engine := s.engine.latch w, turns := .engine :: s.turns }

end Sys2Proof.Machine
end

