-- ==== Sys2Proof/Machine/Step.lean ====
section
/-! DEFINITION. The step of the machine, and the placing of a command word where the next step runs it. -/

namespace Sys2Proof.Machine

/-- One atomic event: a host access, an engine step or a reset (R55). -/
def step (s : State) : Host.Outcome State Fault Refusal := advance s

/-- The state whose next step runs the word `w` of the opcode table: accepted, with the engine's turn next (log 8). -/
def State.withFetchWord (s : State) (nbits w : Nat) : State := s.issue (tableWord nbits w)

end Sys2Proof.Machine
end

