-- ==== Sys2Proof/Machine/HostProgram.lean ====
section
/-! DEFINITION. The assembler syntax and the pseudo-instructions (30_encoding.md sections 5 and 6) as the bus accesses
they stand for (R71). `base` is ENGINE_BASE. -/

namespace Sys2Proof.Machine

/-- A word written to CMD: one 32-bit write at offset 0x000 (R65). -/
def writeCmdWord (base : Nat) (w : Word32) : List HostOp := [.write (base + 0x000) Config.accessBytes w]

/-- A command in assembler form (R65). -/
def asmCommand (base : Nat) (i : Instr) : List HostOp := writeCmdWord base (encode i)

/-- What an assembler answers: it refuses an `append` count above 64 (R65). -/
def assemble (base : Nat) (i : Instr) : Option (List HostOp) := if i.wellFormed then some (asmCommand base i) else none

/-- `wdin v`: DIN_HI, then DIN_LO (R66). -/
def wdin (base : Nat) (v : Word64) : List HostOp :=
  [.write (base + 0x008) Config.accessBytes (dinHi v), .write (base + 0x00C) Config.accessBytes (dinLo v)]

/-- `rdst`: one read of STATUS (R66). -/
def rdst (base : Nat) : List HostOp := [.read (base + 0x004) Config.accessBytes]

/-- `wst v`: one write of STATUS (R66). -/
def wst (base : Nat) (v : Word32) : List HostOp := [.write (base + 0x004) Config.accessBytes v]

/-- `rdig`: reads of DIGEST_0 to DIGEST_15, in order (R66). -/
def rdig (base : Nat) : List HostOp := (List.range 16).map fun k => .read (base + 0x040 + 4 * k) Config.accessBytes

/-- Chunk `t` of a list cut into pieces of `n`: elements `n*t` to `n*t + n - 1`, fewer in the last piece (R67, R68). -/
def pieceAt {α : Type} (n t : Nat) (l : List α) : List α := (l.drop (n * t)).take n

/-- The pieces of `n` elements of a list; the empty list has none (R67, R68). -/
def pieces {α : Type} (n : Nat) (l : List α) : List (List α) :=
  (List.range ((l.length + n - 1) / n)).map fun t => pieceAt n t l

/-- `appendb "<bytes>"`: for each 8-byte chunk `wdin`, `wait` and `append` (R67). -/
def appendb (base : Nat) (bytes : List Byte) : List HostOp :=
  (pieces 8 bytes).flatMap fun c => wdin base (packBytes c) ++ .wait :: asmCommand base (.append (8 * c.length))

/-- Groups of at most 64 bits appended one after another: for each `wdin`, `wait` and `append` (R68). -/
def appendgroups (base : Nat) (groups : List (List Bool)) : List HostOp :=
  groups.flatMap fun c => wdin base (leftJustify 64 c) ++ .wait :: asmCommand base (.append c.length)

/-- `appendbits <bits>` (R68). How the string is cut into groups of at most 64 bits R68 leaves open. DESIGN CHOICE: full
groups of 64 bits, the remainder last, and no access for the empty string (log 24). -/
def appendbits (base : Nat) (bits : List Bool) : List HostOp := appendgroups base (pieces 64 bits)

/-- The one-shot program around a body that appends the message (R69). -/
def oneShot (base : Nat) (body : List HostOp) : List HostOp :=
  .wait :: asmCommand base .init ++ body ++ .wait :: asmCommand base .final ++ .wait :: rdig base

/-- `sum "<msg>"` (R69). -/
def sumProgram (base : Nat) (msg : List Byte) : List HostOp := oneShot base (appendb base msg)

/-- `saltsum "<salt>", "<msg>"` (R70). -/
def saltsumProgram (base : Nat) (salt msg : List Byte) : List HostOp :=
  oneShot base (appendb base salt ++ appendb base msg)

/-- What a host that does not know the engine's history does first (R156). -/
def bootProgram (base : Nat) : List HostOp := .wait :: wst base 0x000000F0 ++ asmCommand base .init

end Sys2Proof.Machine
end

