-- ==== Sys2Proof/Machine/Message.lean ====
section
/-! DEFINITION. The digest of a message in closed form (R11, R92, R116), and a message appended in chunks (R91). No
step uses this file: it is what the statements about whole messages compare the engine with. -/

namespace Sys2Proof.Machine

/-- The block that holds bits, first bit at W.bit[0], zeros after them (R92). -/
@[irreducible] def blockOfBits (bits : List Bool) : Block := Vector.ofFn fun k : Fin 64 => leftJustify 8 (bits.drop (8 * k.val))

/-- Bits `512t` to `512t + 511` of a bit string as a block, with zeros after its end (R92, R116). -/
def messageBlock (bits : List Bool) (t : Nat) : Block :=
  blockOfBits ((bits.drop (Config.blockBits * t)).take Config.blockBits)

/-- `h_t`: the chaining value after the first `t` blocks of a bit string, from `h_0 = 0` (R92, R116). -/
def chainValue (bits : List Bool) : Nat → Words
  | 0 => zeroWords
  | t + 1 => compress (messageBlock bits t) (chainValue bits t)

/-- `be256(L)`: the bits of the 32-byte big-endian length (R116). -/
@[irreducible] def lengthBits (l : Nat) : List Bool := (List.range 256).map fun k => (BitVec.ofNat 256 l).getMsbD k

/-- `z`: the least number of zeros with `L + 1 + z ≡ 256 (mod 512)` (R116). -/
def padZeros (l : Nat) : Nat := (767 - l % 512) % 512

/-- `P = M ‖ 1 ‖ 0^z ‖ be256(|M|)` (R116). -/
def padMessage (m : List Bool) : List Bool :=
  m ++ [true] ++ List.replicate (padZeros m.length) false ++ lengthBits m.length

/-- `WP(M)` (R116). -/
def messageDigest (m : List Bool) : Block :=
  serWords (chainValue (padMessage m) ((padMessage m).length / Config.blockBits))

/-- An APPEND of a chunk of bits: its data latched left-justified, as R63 and R83 lay it out. -/
def appendChunk (c : List Bool) (s : State) : Host.Outcome State Fault Refusal :=
  exec (.append c.length) (s.mapEngine fun e => { e with dinl := leftJustify 64 c })

/-- APPENDs of chunks, in order (R91). -/
def appendChunks : List (List Bool) → State → Host.Outcome State Fault Refusal
  | [], s => .next s
  | c :: cs, s =>
    match appendChunk c s with
    | .next t => appendChunks cs t
    | .fault r => .fault r
    | .refused r => .refused r

end Sys2Proof.Machine
end

