-- ==== Sys2Proof/Machine/ProgramEnd.lean ====
section
/-! DEFINITION. The end of one host program and its observable result (R166). -/

namespace Sys2Proof.Machine

/-- The observable result of a host program: the values it read, and the final engine state (R166). -/
structure ProgramResult where
  reads : List (Nat × Word32)
  engine : Engine
deriving DecidableEq, Repr

/-- The result of the program of master `k`, if it has ended: it has performed its last access and BUSY = 0 (R166). What
other masters have left to do, and what turns are planned, does not matter. -/
def State.resultOf (s : State) (k : Nat) : Option ProgramResult :=
  match s.masters[k]? with
  | none => none
  | some m => if m.program.isEmpty && !s.engine.busy then some ⟨m.reads, s.engine⟩ else none

/-- The result of the program of master `k` at the first moment within `n` steps at which it has ended; what comes after
that moment, a later reset included, is not part of it (R166). -/
def runResult (k : Nat) : Nat → State → Option ProgramResult
  | 0, s => s.resultOf k
  | n + 1, s =>
    match s.resultOf k with
    | some r => some r
    | none =>
      match step s with
      | .next t => runResult k n t
      | .fault _ => none
      | .refused _ => none

end Sys2Proof.Machine
end

