-- ==== Sys2Proof/Safety.lean ====
section
/-! DEFINITION. What a safe state and a safe run are, and the words the statements use: the invariants of R30 that every
step keeps, the mover of a step, a run whose bus accesses lie in the engine's window, and the end of a host program. -/

namespace Sys2Proof.Machine

/-- R30 (b): the working block is 0 at and above the cursor. -/
def Engine.TailZero (e : Engine) : Prop := ∀ p, e.nb.toNat ≤ p → p < Config.blockBits → blockBit e.w p = false

/-- What R92 says of the cursor and the counter: in phase ACCUM, `NB = LEN mod 512`. -/
def Engine.CursorFollowsLength (e : Engine) : Prop := e.ph = .accum → e.nb.toNat = e.len.toNat % Config.blockBits

/-- R30 (d) and R113: in phase DONE the accumulator is empty and DIGEST is the serialization of H. -/
def Engine.DoneShape (e : Engine) : Prop :=
  e.ph = .done → e.nb = 0 ∧ e.w = zeroBlock ∧ e.digest = serWords e.h ∧ e.dv = true

/-- R22 and R127: with DV = 0 no FINALIZE has completed since reset and DIGEST is 0. -/
def Engine.DigestBlank (e : Engine) : Prop := e.dv = false → e.digest = zeroBlock

/-- The invariant of the engine: R30 (b), R92, R30 (d) and R127. (R30 (a), NB < 512, holds by NB's type.) -/
structure Engine.Inv (e : Engine) : Prop where
  tailZero : e.TailZero
  cursor : e.CursorFollowsLength
  doneShape : e.DoneShape
  digestBlank : e.DigestBlank

/-- The next step is an enabled engine step (R124): it is the engine's turn and BUSY = 1. -/
def State.EngineMoves (s : State) : Prop := s.mover = some .engine ∧ s.engine.busy = true

/-- The next step is the access `op` of master `k`, whose state is `m` and whose program goes on with `rest`. -/
def State.Accesses (s : State) (k : Nat) (m : Master) (op : HostOp) (rest : List HostOp) : Prop :=
  s.mover = some (.host k) ∧ s.masters[k]? = some m ∧ m.program = op :: rest

/-- The next step is a 32-bit write of `v` to the register at offset `off`. -/
def State.WritesReg (s : State) (off : Nat) (v : Word32) : Prop :=
  ∃ k m rest, s.Accesses k m (.write (s.engineBase + off) Config.accessBytes v) rest

/-- Every access that a master has yet to make lies in the engine's window. -/
def State.InWindow (s : State) : Prop := ∀ m ∈ s.masters, ∀ op ∈ m.program, op.inWindow s.engineBase = true

/-- Everything has ended: no access and no turn is left and BUSY = 0. The end of ONE program, which R166 defines, is
`State.resultOf`. -/
def State.Ended (s : State) : Prop :=
  s.turns = [] ∧ (∀ m ∈ s.masters, m.program = []) ∧ s.engine.busy = false

/-- The engine with one error flag set and BUSY = 0: what a rejected command leaves (R138). -/
def Engine.rejected (e : Engine) (c : ErrCode) : Engine := (e.raise c).complete

/-- The 16 reads of `rdig` and the values they give for a digest (R66, R127). -/
def digestReads (base : Nat) (d : Block) : List (Nat × Word32) :=
  (List.range 16).map fun k => (base + 0x040 + 4 * k, digestReg d k)

end Sys2Proof.Machine
end

