-- ==== Sys2Proof/Certificates/Slice0/Obligations.lean ====
section
/-! DEFINITION. The statements for the provers. `log <n>` in a docstring is notes/assumptions/<n>.md. -/

open Sys2Proof
open Sys2Proof.Machine

/-! Encoding (30_encoding.md). -/

/-- R60, R64: every legal command is read back from its word, APPEND with each of its 65 counts. -/
def Obligations.DecodeOfEncode : Prop :=
  ∀ i : Instr, i.wellFormed = true → decode (encode i) = .command i

/-- R56, R64: a word that decodes to a command is that command's word, and the command is legal. -/
def Obligations.EncodeOfDecode : Prop :=
  ∀ (w : Word32) (i : Instr), decode w = .command i → i.wellFormed = true ∧ encode i = w

/-- R64: the legal words are NOP's, INIT's, FINALIZE's and the 65 of APPEND, each of its own command; every other word is
rejected. -/
def Obligations.LegalWordsAreTheListed68 : Prop :=
  ∀ w : Word32,
    (decode w = .command .nop ↔ w = 0x00000000) ∧ (decode w = .command .init ↔ w = 0x01000000) ∧
    (∀ n, decode w = .command (.append n) ↔ n ≤ 64 ∧ w = 0x02000000 + BitVec.ofNat 32 n) ∧
    (decode w = .command .final ↔ w = 0x03000000) ∧
    ((w ≠ 0x00000000 ∧ w ≠ 0x01000000 ∧ w ≠ 0x03000000 ∧ ∀ n, n ≤ 64 → w ≠ 0x02000000 + BitVec.ofNat 32 n) →
      decode w = .illegalOp ∨ decode w = .illegalCnt)

/-- R56, R57, R60: words written out from the encoding, with the worked decodes of V-X14. -/
def Obligations.SampleWordsDecode : Prop :=
  decode 0x00000000 = .command .nop ∧ decode 0x01000000 = .command .init ∧
  decode 0x02000000 = .command (.append 0) ∧ decode 0x02000018 = .command (.append 24) ∧
  decode 0x02000040 = .command (.append 64) ∧ decode 0x03000000 = .command .final ∧
  decode 0x00000001 = .illegalOp ∧ decode 0x01000040 = .illegalOp ∧ decode 0x02000080 = .illegalOp ∧
  decode 0x02800040 = .illegalOp ∧ decode 0x03000001 = .illegalOp ∧ decode 0x04000000 = .illegalOp ∧
  decode 0xFF000000 = .illegalOp ∧ decode 0x02000041 = .illegalCnt ∧ decode 0x0200007F = .illegalCnt

/-! The engine step (44_control.md, 60_exceptions.md). -/

/-- R124: the engine step runs the decoded command and lets BUSY fall, or sets the flag of a rejected word and lets BUSY
fall. With BUSY = 0 it is not enabled; that the engine's turn then is a step that keeps the engine is the model's choice
(log 3; R151). -/
def Obligations.EngineStepRunsDecodedCommand : Prop :=
  (∀ s : State, s.EngineMoves →
    (∀ i, decode s.engine.cmdl = .command i →
      step s = thenNext (exec i s.popTurn) fun t => { t with engine := { t.engine with busy := false } }) ∧
    (decode s.engine.cmdl = .illegalOp →
      step s = .next { s.popTurn with engine := { s.engine with errOp := true, busy := false } }) ∧
    (decode s.engine.cmdl = .illegalCnt →
      step s = .next { s.popTurn with engine := { s.engine with errCnt := true, busy := false } })) ∧
  (∀ s : State, s.mover = some .engine → s.engine.busy = false → ∃ t, step s = .next t ∧ t.engine = s.engine)

/-- The model's own placing of a word (log 8): the step after `withFetchWord` runs the command that the word decodes
to, in the state in which the word has just been accepted (R123). -/
def Obligations.IssuedWordRunsNext : Prop :=
  ∀ (s : State) (w : Nat) (i : Instr), decodeTableWord 32 w = some i →
    step (s.withFetchWord 32 w) =
      thenNext (exec i { s with
        engine := { s.engine with cmdl := BitVec.ofNat 32 w, dinl := s.engine.din, busy := true } })
        fun t => { t with engine := { t.engine with busy := false } }

/-- R136: when a word is rejected with ERR_OP, and all that the rejection changes. -/
def Obligations.IllegalOpRejection : Prop :=
  ∀ s : State, s.EngineMoves →
    (0x04 ≤ (s.engine.cmdl.extractLsb' 24 8).toNat ∨ s.engine.cmdl.extractLsb' 7 17 ≠ 0 ∨
      ((s.engine.cmdl.extractLsb' 24 8 = 0x00 ∨ s.engine.cmdl.extractLsb' 24 8 = 0x01 ∨
        s.engine.cmdl.extractLsb' 24 8 = 0x03) ∧ s.engine.cmdl.extractLsb' 0 7 ≠ 0)) →
    step s = .next { s.popTurn with engine := { s.engine with errOp := true, busy := false } }

/-- R137: when a word is rejected with ERR_CNT, and all that the rejection changes. -/
def Obligations.IllegalCountRejection : Prop :=
  ∀ s : State, s.EngineMoves →
    s.engine.cmdl.extractLsb' 24 8 = 0x02 → s.engine.cmdl.extractLsb' 7 17 = 0 →
    64 < (s.engine.cmdl.extractLsb' 0 7).toNat →
    step s = .next { s.popTurn with engine := { s.engine with errCnt := true, busy := false } }

/-- R139: a legal APPEND or FINALIZE that finds PH = DONE sets ERR_SEQ at the engine step and changes nothing else, but
that BUSY falls. -/
def Obligations.SequenceErrorWhenDone : Prop :=
  (∀ (s : State) (i : Instr), i.wellFormed = true → ((∃ n, i = .append n) ∨ i = .final) → s.engine.ph = .done →
    exec i s = .next { s with engine := { s.engine with errSeq := true } }) ∧
  (∀ s : State, s.EngineMoves → s.engine.ph = .done →
    ((∃ n, decode s.engine.cmdl = .command (.append n)) ∨ decode s.engine.cmdl = .command .final) →
    step s = .next { s.popTurn with engine := { s.engine with errSeq := true, busy := false } })

/-- R138: a rejected word or command changes one error flag and BUSY, nothing else, whatever flags were set before. -/
def Obligations.RejectionIsPrecise : Prop :=
  ∀ s : State, s.EngineMoves →
    ((∀ i, decode s.engine.cmdl ≠ .command i) ∨
      (s.engine.ph = .done ∧ ((∃ n, decode s.engine.cmdl = .command (.append n)) ∨
        decode s.engine.cmdl = .command .final))) →
    ∃ c : ErrCode, step s = .next { s.popTurn with engine := s.engine.rejected c } ∧
      (s.engine.rejected c).flag c = true ∧ ∀ d, d ≠ c → (s.engine.rejected c).flag d = s.engine.flag d

/-- R141: the priority of the four conditions, and that one flag is reported: ERR_OVR at the CMD write whatever the
word; then ERR_OP for the fields of R136, whatever the count and the phase; then ERR_CNT in either phase; then ERR_SEQ. -/
def Obligations.OneErrorByPriority : Prop :=
  (∀ (s : State) k m rest w, s.Accesses k m (.write (s.engineBase + 0x000) 4 w) rest → s.engine.busy = true →
    step s = .next ({ s.popTurn with engine := { s.engine with errOvr := true } }.setMaster k ⟨rest, m.reads⟩)) ∧
  (∀ s : State, s.EngineMoves →
    (0x04 ≤ (opField s.engine.cmdl).toNat ∨ rsvField s.engine.cmdl ≠ 0 ∨
      (opField s.engine.cmdl ≠ 0x02 ∧ cntField s.engine.cmdl ≠ 0)) →
    step s = .next { s.popTurn with engine := { s.engine with errOp := true, busy := false } }) ∧
  (∀ s : State, s.EngineMoves → rsvField s.engine.cmdl = 0 → opField s.engine.cmdl = 0x02 →
    64 < (cntField s.engine.cmdl).toNat →
    step s = .next { s.popTurn with engine := { s.engine with errCnt := true, busy := false } }) ∧
  (∀ s : State, s.EngineMoves → s.engine.ph = .done →
    ((∃ n, decode s.engine.cmdl = .command (.append n)) ∨ decode s.engine.cmdl = .command .final) →
    step s = .next { s.popTurn with engine := { s.engine with errSeq := true, busy := false } })

/-! The commands. -/

/-- R118: NOP completes in every state and changes nothing; its engine step changes only BUSY. -/
def Obligations.NopChangesNothing : Prop :=
  (∀ s : State, exec .nop s = .next s) ∧
  (∀ s : State, s.EngineMoves → s.engine.cmdl = 0x00000000 →
    step s = .next { s.popTurn with engine := { s.engine with busy := false } })

/-- R119: INIT completes in every state, in both phases, and leaves a fresh accumulator; DIGEST, DV, DIN, the error flags
and everything else stay; right after reset it changes nothing. -/
def Obligations.InitStartsFreshMessage : Prop :=
  (∀ s : State, exec .init s = .next { s with engine := { s.engine with
    h := Vector.replicate 8 0, w := Vector.replicate 64 0, nb := 0, len := 0, ph := .accum } }) ∧
  exec .init State.reset = .next State.reset

/-- R82, R84, R85, R86, R88: APPEND of n bits in phase ACCUM completes. LEN grows by n modulo 2^256. The bits DINL[63] down
to DINL[64-n] land at the cursor; the block that they fill is compressed once and the rest starts the next block. The
equation of states is the frame: nothing but H, W, NB and LEN changes. -/
def Obligations.AppendAbsorbsItsBits : Prop :=
  ∀ (s : State) (n : Nat), n ≤ 64 → s.engine.ph = .accum →
    ∃ (h' : Words) (w' : Block) (nb' : BitVec 9) (len' : Length),
      exec (.append n) s = .next { s with engine := { s.engine with h := h', w := w', nb := nb', len := len' } } ∧
      len'.toNat = (s.engine.len.toNat + n) % 2 ^ 256 ∧
      (s.engine.nb.toNat + n < 512 →
        h' = s.engine.h ∧ nb'.toNat = s.engine.nb.toNat + n ∧
        ∀ p, p < 512 → blockBit w' p =
          if s.engine.nb.toNat ≤ p ∧ p < s.engine.nb.toNat + n then dataBit s.engine.dinl (p - s.engine.nb.toNat)
          else blockBit s.engine.w p) ∧
      (512 ≤ s.engine.nb.toNat + n →
        ∃ full : Block,
          (∀ p, p < 512 → blockBit full p =
            if p < s.engine.nb.toNat then blockBit s.engine.w p
            else dataBit s.engine.dinl (p - s.engine.nb.toNat)) ∧
          h' = compress full s.engine.h ∧ nb'.toNat = s.engine.nb.toNat + n - 512 ∧
          ∀ p, p < 512 → blockBit w' p =
            if p < s.engine.nb.toNat + n - 512 then dataBit s.engine.dinl (512 - s.engine.nb.toNat + p) else false)

/-- R89: an APPEND of 0 bits is a no-op in phase ACCUM, and ERR_SEQ in phase DONE. -/
def Obligations.AppendOfNothing : Prop :=
  (∀ s : State, s.engine.ph = .accum → exec (.append 0) s = .next s) ∧
  (∀ s : State, s.engine.ph = .done → exec (.append 0) s = .next { s with engine := { s.engine with errSeq := true } })

/-- R62: the bits of DINL below the count are ignored: two data operands that agree on their first n bits give states
that differ in DINL only. -/
def Obligations.BitsBelowCountAreIgnored : Prop :=
  ∀ (s : State) (n : Nat) (d d' : Word64), (∀ k, k < n → dataBit d k = dataBit d' k) →
    ∃ t, exec (.append n) { s with engine := { s.engine with dinl := d } } = .next t ∧
      exec (.append n) { s with engine := { s.engine with dinl := d' } } =
        .next { t with engine := { t.engine with dinl := d' } }

/-- R105 to R113: FINALIZE in phase ACCUM completes. With NB < 256 one block is compressed: the message bits, the pad bit,
zeros up to byte 32, then LEN. With NB >= 256 the padded block is compressed first and the length stands in a second
one. DIGEST is the serialization of the new H. The equation of states is the frame: LEN, DIN, the error flags and
everything else stay. The premise is R30 (b). -/
def Obligations.FinalizePadsAndLatchesDigest : Prop :=
  ∀ s : State, s.engine.ph = .accum → s.engine.TailZero →
    ∃ (h' : Words) (d' : Block),
      exec .final s = .next { s with engine := { s.engine with
        h := h', w := Vector.replicate 64 0, nb := 0, ph := .done, digest := d', dv := true } } ∧
      (∀ (i : Fin 8) (k : Nat), k < 8 → blockByte d' (8 * i.val + k) = byteOf k h'[i]) ∧
      (s.engine.nb.toNat < 256 →
        ∃ last : Block,
          (∀ p, p < 512 → blockBit last p =
            if p < s.engine.nb.toNat then blockBit s.engine.w p
            else if p = s.engine.nb.toNat then true
            else if p < 256 then false
            else s.engine.len.getMsbD (p - 256)) ∧
          h' = compress last s.engine.h) ∧
      (256 ≤ s.engine.nb.toNat →
        ∃ spilled last : Block,
          (∀ p, p < 512 → blockBit spilled p =
            if p < s.engine.nb.toNat then blockBit s.engine.w p else decide (p = s.engine.nb.toNat)) ∧
          (∀ p, p < 512 → blockBit last p = if p < 256 then false else s.engine.len.getMsbD (p - 256)) ∧
          h' = compress last (compress spilled s.engine.h))

/-- R106: the state machine, run for six steps from any value of FC (R25), ends and gives what the single function of
R105 gives. -/
def Obligations.FinalizerMachineIsFinalize : Prop :=
  ∀ (e : Engine) (fc : Nat), e.ph = .accum →
    (FinRegs.run 6 (FinRegs.start fc e)).fs = .ended ∧ (FinRegs.run 6 (FinRegs.start fc e)).engine = e.finalize

/-- R115: FINALIZE performs one compression when NB < 256 and two otherwise. -/
def Obligations.OneOrTwoFinalCompressions : Prop :=
  ∀ (e : Engine) (fc : Nat), FinRegs.runCompressions 6 (FinRegs.start fc e) = if e.nb.toNat < 256 then 1 else 2

/-- R134: INIT then FINALIZE, and FINALIZE right after reset, give the digest of the empty message. -/
def Obligations.EmptyMessageDigest : Prop :=
  let empty : Words := #v[0x19FA61D75522A466, 0x9B44E39C1D2E1726, 0xC530232130D407F8, 0x9AFEE0964997F7A7,
    0x3E83BE698B288FEB, 0xCF88E3E03C4F0757, 0xEA8964E59B63D937, 0x08B138CC42A66EB3]
  (∀ s : State, ∃ t u, exec .init s = .next t ∧ exec .final t = .next u ∧ u.engine.digest = serWords empty) ∧
  (∃ u, exec .final State.reset = .next u ∧ u.engine.digest = serWords empty) ∧
  messageDigest [] = serWords empty

/-! The accumulator's equivalent forms and the laws of whole messages. -/

/-- R84: the addition byte by byte, carry from the least significant byte and dropped at the top, is addition modulo
2^256. -/
def Obligations.LengthAdditionByteByByte : Prop :=
  ∀ (len : Length) (n : Nat), n ≤ 64 →
    lenAddBytes len n = lenAdd len n ∧ (lenAdd len n).toNat = (len.toNat + n) % 2 ^ 256

/-- R87: the byte-at-a-time procedure gives the same state as ABSORB of each bit, for whole bytes and for a last group
of fewer than 8 bits. The premise is R30 (b). -/
def Obligations.ByteAtATimeIsBitwise : Prop :=
  ∀ (e : Engine) (b : Byte), e.TailZero →
    e.absorbByte b = e.absorbBits ((List.range 8).map (byteBit b)) ∧
    ∀ q, q < 8 → (∀ k, q ≤ k → k < 8 → byteBit b k = false) →
      e.absorbPartial b q = e.absorbBits ((List.range q).map (byteBit b))

/-- R91: APPENDs of chunks of at most 64 bits in phase ACCUM complete; H, W and NB are those of the per-bit absorption of
the whole string and LEN grows by its length; so two cuts of one string leave the same accumulator. -/
def Obligations.ChunkInvariance : Prop :=
  (∀ (s : State) (cs : List (List Bool)), s.engine.ph = .accum → (∀ c ∈ cs, c.length ≤ 64) →
    ∃ t, appendChunks cs s = .next t ∧
      t.engine.h = (s.engine.absorbBits cs.flatten).h ∧ t.engine.w = (s.engine.absorbBits cs.flatten).w ∧
      t.engine.nb = (s.engine.absorbBits cs.flatten).nb ∧
      t.engine.len.toNat = (s.engine.len.toNat + cs.flatten.length) % 2 ^ 256) ∧
  (∀ (s : State) (cs ds : List (List Bool)), s.engine.ph = .accum → (∀ c ∈ cs, c.length ≤ 64) →
    (∀ d ∈ ds, d.length ≤ 64) → cs.flatten = ds.flatten →
    ∃ t u, appendChunks cs s = .next t ∧ appendChunks ds s = .next u ∧
      t.engine.h = u.engine.h ∧ t.engine.w = u.engine.w ∧ t.engine.nb = u.engine.nb ∧ t.engine.len = u.engine.len)

/-- R92: the accumulator after INIT, or reset, and APPENDs whose concatenation is M. -/
def Obligations.AccumulatorAfterMessage : Prop :=
  ∀ (t : State) (cs : List (List Bool)), (t = State.reset ∨ ∃ s, exec .init s = .next t) → (∀ c ∈ cs, c.length ≤ 64) →
    ∃ u, appendChunks cs t = .next u ∧
      u.engine.h = chainValue cs.flatten (cs.flatten.length / 512) ∧
      u.engine.nb.toNat = cs.flatten.length % 512 ∧
      (∀ p, p < 512 → blockBit u.engine.w p =
        if p < cs.flatten.length % 512 then cs.flatten.getD (512 * (cs.flatten.length / 512) + p) false
        else false) ∧
      u.engine.len.toNat = cs.flatten.length % 2 ^ 256 ∧ u.engine.ph = .accum

/-- R116: the digest after INIT, APPENDs whose concatenation is M, and FINALIZE is WP(M). -/
def Obligations.DigestOfMessage : Prop :=
  ∀ (s : State) (cs : List (List Bool)), (∀ c ∈ cs, c.length ≤ 64) → cs.flatten.length < 2 ^ 256 →
    ∃ t u v, exec .init s = .next t ∧ appendChunks cs t = .next u ∧ exec .final u = .next v ∧
      v.engine.digest = messageDigest cs.flatten

/-! Tables and compression (40_lookup_tables.md, 42_compression.md). -/

/-- R73, R75, R77, R79: the stored tables are what the spec's constructions give, and byte j of table j is the S-box. -/
def Obligations.TablesMatchConstructions : Prop :=
  (∀ x : Byte, sbox x = sboxByMiniBoxes x) ∧ (∀ x : Byte, c0 x = c0ByField x) ∧
  (∀ (j : Fin 8) (x : Byte), byteOf j (cTable j x) = sbox x) ∧ (∀ r : Fin 10, rc (r.val + 1) = rcBySbox (r.val + 1))

/-- R95: every word of RHO written out over the eight tables, the index `(i - j) mod 8` on naturals; and the rule's own
written-out form of word 0. -/
def Obligations.RhoWrittenOut : Prop :=
  ∀ v : Words,
    (∀ (i : Nat) (h : i < 8), (rho v)[i] =
      cTable 0 (byteOf 0 (v[i % 8]'(by omega))) ^^^ cTable 1 (byteOf 1 (v[(i + 8 - 1) % 8]'(by omega))) ^^^
      cTable 2 (byteOf 2 (v[(i + 8 - 2) % 8]'(by omega))) ^^^ cTable 3 (byteOf 3 (v[(i + 8 - 3) % 8]'(by omega))) ^^^
      cTable 4 (byteOf 4 (v[(i + 8 - 4) % 8]'(by omega))) ^^^ cTable 5 (byteOf 5 (v[(i + 8 - 5) % 8]'(by omega))) ^^^
      cTable 6 (byteOf 6 (v[(i + 8 - 6) % 8]'(by omega))) ^^^ cTable 7 (byteOf 7 (v[(i + 8 - 7) % 8]'(by omega)))) ∧
    (rho v)[0] =
      cTable 0 (byteOf 0 v[0]) ^^^ cTable 1 (byteOf 1 v[7]) ^^^ cTable 2 (byteOf 2 v[6]) ^^^ cTable 3 (byteOf 3 v[5]) ^^^
      cTable 4 (byteOf 4 v[4]) ^^^ cTable 5 (byteOf 5 v[3]) ^^^ cTable 6 (byteOf 6 v[2]) ^^^ cTable 7 (byteOf 7 v[1])

/-- R97, R98, R102: the round constant enters word 0 of the key only, the state step has none, and a round gives the state
step the key that its key step has just produced. -/
def Obligations.RoundConstantOnlyInKeyWordZero : Prop :=
  (∀ (k : Words) (r : Nat), (keyStep k r)[0] = (rho k)[0] ^^^ rc r ∧ ∀ i : Fin 8, i ≠ 0 → (keyStep k r)[i] = (rho k)[i]) ∧
  (∀ (s k : Words) (i : Fin 8), (stateStep s k)[i] = (rho s)[i] ^^^ k[i]) ∧
  (∀ c : CompressRegs, (cipherRound c).k = keyStep c.k (c.r + 1) ∧ (cipherRound c).s = stateStep c.s (cipherRound c).k ∧
    (cipherRound c).b = c.b ∧ (cipherRound c).r = c.r + 1)

/-- R94, R96, R99: COMPRESS from any HashState. The parse and the whitening; a round; and the whole: a chain of eleven keys
from H and of eleven states from the whitened block, each key by KEYSTEP, each state by STATESTEP with the new key, and
the feed-forward of the last state. -/
def Obligations.CompressIsTenRoundsAndFeedForward : Prop :=
  ∀ (w : Block) (h : Words),
    ((whiten w h).k = h ∧ (whiten w h).r = 0 ∧ ∀ i : Fin 8,
      (whiten w h).b[i] = blockWord w i ∧ (whiten w h).s[i] = blockWord w i ^^^ h[i] ∧
      ∀ k, k < 8 → byteOf k (blockWord w i) = blockByte w (8 * i.val + k)) ∧
    (∀ c : CompressRegs,
      cipherRound c = ⟨c.b, stateStep c.s (keyStep c.k (c.r + 1)), keyStep c.k (c.r + 1), c.r + 1⟩) ∧
    ∃ k s : Nat → Words, k 0 = h ∧ (∀ i : Fin 8, (s 0)[i] = blockWord w i ^^^ h[i]) ∧
      (∀ r, r < 10 → k (r + 1) = keyStep (k r) (r + 1) ∧ s (r + 1) = stateStep (s r) (k (r + 1))) ∧
      ∀ i : Fin 8, (compress w h)[i] = h[i] ^^^ (s 10)[i] ^^^ blockWord w i

/-! Host accesses (20_memory.md, 44_control.md section 2). -/

/-- R125, R126, R127, R128, R36: what a 32-bit read of each offset of the window gives; no read changes anything but the
reading master. -/
def Obligations.RegisterReads : Prop :=
  ∀ (s : State) k m rest (off : Nat), off < 0x100 → off % 4 = 0 →
    s.Accesses k m (.read (s.engineBase + off) 4) rest →
    ∃ v : Word32, step s = .next (s.popTurn.setMaster k ⟨rest, m.reads ++ [(s.engineBase + off, v)]⟩) ∧
      (off = 0x000 → v = 0) ∧
      (off = 0x004 →
        v.getLsbD 0 = s.engine.busy ∧ v.getLsbD 1 = decide (s.engine.ph = .done) ∧ v.getLsbD 2 = s.engine.dv ∧
        v.getLsbD 3 = false ∧ v.getLsbD 4 = s.engine.errOp ∧ v.getLsbD 5 = s.engine.errCnt ∧
        v.getLsbD 6 = s.engine.errSeq ∧ v.getLsbD 7 = s.engine.errOvr ∧ ∀ b, 8 ≤ b → v.getLsbD b = false) ∧
      (off = 0x008 → v = s.engine.din.extractLsb' 32 32) ∧
      (off = 0x00C → v = s.engine.din.extractLsb' 0 32) ∧
      (0x040 ≤ off ∧ off < 0x080 → v = blockByte s.engine.digest (off - 0x40) ++ blockByte s.engine.digest (off - 0x40 + 1)
        ++ blockByte s.engine.digest (off - 0x40 + 2) ++ blockByte s.engine.digest (off - 0x40 + 3)) ∧
      ((0x010 ≤ off ∧ off < 0x040) ∨ 0x080 ≤ off → v = 0)

/-- R120, R121: a write of DIN_HI or DIN_LO replaces that half of DIN and changes nothing else, BUSY or not. -/
def Obligations.DinHalvesAreWritten : Prop :=
  (∀ (s : State) k m rest v, s.Accesses k m (.write (s.engineBase + 0x008) 4 v) rest →
    step s = .next ({ s.popTurn with engine := { s.engine with din := v ++ s.engine.din.extractLsb' 0 32 } }.setMaster k
      ⟨rest, m.reads⟩)) ∧
  (∀ (s : State) k m rest v, s.Accesses k m (.write (s.engineBase + 0x00C) 4 v) rest →
    step s = .next ({ s.popTurn with engine := { s.engine with din := s.engine.din.extractLsb' 32 32 ++ v } }.setMaster k
      ⟨rest, m.reads⟩))

/-- R122: a write of STATUS clears exactly the error flags whose bit is 1; the other bits of the value are ignored. -/
def Obligations.StatusWriteClearsFlags : Prop :=
  ∀ (s : State) k m rest v, s.Accesses k m (.write (s.engineBase + 0x004) 4 v) rest →
    step s = .next ({ s.popTurn with engine := { s.engine with
      errOp := if v.getLsbD 4 then false else s.engine.errOp
      errCnt := if v.getLsbD 5 then false else s.engine.errCnt
      errSeq := if v.getLsbD 6 then false else s.engine.errSeq
      errOvr := if v.getLsbD 7 then false else s.engine.errOvr } }.setMaster k ⟨rest, m.reads⟩)

/-- R123: a write of CMD is accepted with BUSY = 0, whatever the word; with BUSY = 1 it is dropped and sets ERR_OVR. -/
def Obligations.CmdWriteAcceptsOrDrops : Prop :=
  ∀ (s : State) k m rest w, s.Accesses k m (.write (s.engineBase + 0x000) 4 w) rest →
    (s.engine.busy = false →
      step s = .next ({ s.popTurn with
        engine := { s.engine with cmdl := w, dinl := s.engine.din, busy := true } }.setMaster k ⟨rest, m.reads⟩)) ∧
    (s.engine.busy = true →
      step s = .next ({ s.popTurn with engine := { s.engine with errOvr := true } }.setMaster k ⟨rest, m.reads⟩))

/-- R36, R129: a write of a DIGEST register or of a reserved offset changes nothing. -/
def Obligations.ReadOnlyWritesAreIgnored : Prop :=
  ∀ (s : State) k m rest (off : Nat) v, 0x010 ≤ off → off < 0x100 → off % 4 = 0 →
    s.Accesses k m (.write (s.engineBase + off) 4 v) rest →
    step s = .next (s.popTurn.setMaster k ⟨rest, m.reads⟩)

/-- R41: an access of another width or at an offset that is no multiple of 4 changes nothing if it is a write and gives
0 if it is a read. That the start address alone decides whether the access lies in the window, also where it ends beyond
it, is the model's reading (log 7). -/
def Obligations.OddAccessesDoNothing : Prop :=
  ∀ (s : State) k m rest (off width : Nat), off < 0x100 → (width ≠ 4 ∨ off % 4 ≠ 0) →
    (∀ v, s.Accesses k m (.write (s.engineBase + off) width v) rest →
      step s = .next (s.popTurn.setMaster k ⟨rest, m.reads⟩)) ∧
    (s.Accesses k m (.read (s.engineBase + off) width) rest →
      step s = .next (s.popTurn.setMaster k ⟨rest, m.reads ++ [(s.engineBase + off, 0)]⟩))

/-- The model's choice (log 6): an access whose address lies outside the window stops the machine. -/
def Obligations.AccessOutsideWindowStops : Prop :=
  ∀ (s : State) k m rest (addr width : Nat), (addr < s.engineBase ∨ s.engineBase + 0x100 ≤ addr) →
    (s.Accesses k m (.read addr width) rest → step s = .fault .outsideWindow) ∧
    (∀ v, s.Accesses k m (.write addr width v) rest → step s = .fault .outsideWindow)

/-- R66: `wait` reads STATUS once a turn and goes on exactly when BUSY reads 0. -/
def Obligations.WaitPollsBusy : Prop :=
  ∀ (s : State) k m rest, s.Accesses k m .wait rest →
    step s = .next (s.popTurn.setMaster k
      ⟨if s.engine.busy then .wait :: rest else rest, m.reads ++ [(s.engineBase + 0x004, s.engine.status)]⟩)

/-- R29: what a host reads depends on PH, BUSY, DV, the error flags, DIN and DIGEST only: H, W, NB, LEN, CMDL and DINL
cannot be seen. -/
def Obligations.HiddenStateCannotBeRead : Prop :=
  ∀ (e e' : Engine), e.ph = e'.ph → e.busy = e'.busy → e.dv = e'.dv → (∀ c, e.flag c = e'.flag c) → e.din = e'.din →
    e.digest = e'.digest → ∀ off width, e.readAt off width = e'.readAt off width

/-- R52: a write of DIN after a command was accepted does not change that command: the write and the engine step give
the same state in either order. -/
def Obligations.DinRewriteLeavesPendingCommand : Prop :=
  ∀ (s : State) k m rest (off : Nat) v (ts : List Turn), s.engine.busy = true → (off = 0x008 ∨ off = 0x00C) →
    s.masters[k]? = some m → m.program = .write (s.engineBase + off) 4 v :: rest →
    ∃ t, Host.Core.run core 2 { s with turns := .host k :: .engine :: ts } = .next t ∧
      Host.Core.run core 2 { s with turns := .engine :: .host k :: ts } = .next t

/-- R123, R164 and the two timings of P4: a CMD write before the pending command's engine step is dropped and reported;
after it, the word is accepted. The model has both runs. -/
def Obligations.CmdWriteRacesWithCompletion : Prop :=
  ∀ (s : State) k m rest w (ts : List Turn), s.engine.busy = true →
    s.masters[k]? = some m → m.program = .write (s.engineBase + 0x000) 4 w :: rest →
    (∃ t, Host.Core.run core 2 { s with turns := .host k :: .engine :: ts } = .next t ∧
      t.engine.busy = false ∧ t.engine.errOvr = true ∧ t.engine.cmdl = s.engine.cmdl) ∧
    (∃ t, Host.Core.run core 2 { s with turns := .engine :: .host k :: ts } = .next t ∧
      t.engine.busy = true ∧ t.engine.errOvr = s.engine.errOvr ∧ t.engine.cmdl = w ∧ t.engine.dinl = s.engine.din)

/-! Reset (70_reset_and_hazards.md). -/

/-- R31: the values after reset that the spec gives (CMDL and DINL are unspecified there), STATUS reads 0, and a first
APPEND is taken without an INIT. -/
def Obligations.ResetValues : Prop :=
  let e := State.reset.engine
  (e.h = Vector.replicate 8 0 ∧ e.w = Vector.replicate 64 0 ∧ e.nb = 0 ∧ e.len = 0 ∧ e.ph = .accum ∧ e.busy = false ∧
    e.din = 0 ∧ e.digest = Vector.replicate 64 0 ∧ e.dv = false ∧ e.errOp = false ∧ e.errCnt = false ∧
    e.errSeq = false ∧ e.errOvr = false ∧ e.status = 0x00000000) ∧
  ∀ n, n ≤ 64 → ∃ t, exec (.append n) State.reset = .next t ∧ t.engine.ph = .accum ∧ ∀ c, t.engine.flag c = false

/-- R152, R153: a reset event, at any time and with any command pending, gives every element of the engine its reset
value, those that the spec gives. -/
def Obligations.ResetEvent : Prop :=
  ∀ s : State, s.mover = some .reset →
    ∃ t, step s = .next t ∧ t.engine.h = Vector.replicate 8 0 ∧ t.engine.w = Vector.replicate 64 0 ∧ t.engine.nb = 0 ∧
      t.engine.len = 0 ∧ t.engine.din = 0 ∧ t.engine.digest = Vector.replicate 64 0 ∧ t.engine.ph = .accum ∧
      t.engine.busy = false ∧ t.engine.dv = false ∧ ∀ c, t.engine.flag c = false

/-- R155: after reset the accumulator is the one INIT produces from any state, and FINALIZE gives WP(empty). -/
def Obligations.ResetLeavesFreshAccumulator : Prop :=
  (∀ s : State, ∃ t, exec .init s = .next t ∧ State.reset.engine.h = t.engine.h ∧ State.reset.engine.w = t.engine.w ∧
    State.reset.engine.nb = t.engine.nb ∧ State.reset.engine.len = t.engine.len ∧ State.reset.engine.ph = t.engine.ph) ∧
  (∃ u, exec .final State.reset = .next u ∧ u.engine.digest = messageDigest [])

/-! Invariants and rules about every step. -/

/-- R30 (b), (d), R92 and R127 hold at reset. -/
def Obligations.InvariantAtReset : Prop := State.reset.engine.Inv

/-- R30 (b), (d), R92 and R127: every step keeps them, from every state. -/
def Obligations.InvariantKeptByEveryStep : Prop :=
  ∀ s t : State, s.engine.Inv → step s = .next t → t.engine.Inv

/-- R143, R145: with all accesses in the window no step stops, and the accesses left stay in the window. The stop outside
the window is the model's choice (log 6). -/
def Obligations.NothingStopsInsideWindow : Prop :=
  ∀ s : State, s.InWindow → ∃ t, step s = .next t ∧ t.InWindow

/-- R117, R21, R22: DIGEST changes only, and DV rises only, at a FINALIZE that completes; either is lost only at reset. -/
def Obligations.DigestChangesOnlyAtFinalize : Prop :=
  ∀ s t : State, step s = .next t → (t.engine.digest ≠ s.engine.digest ∨ t.engine.dv ≠ s.engine.dv) →
    s.mover = some .reset ∨
    (s.EngineMoves ∧ decode s.engine.cmdl = .command .final ∧ s.engine.ph = .accum ∧ t.engine.dv = true)

/-- R12, R30 (e): H changes only at a block completion, at a final compression, or at INIT or reset. -/
def Obligations.HashStateWriters : Prop :=
  ∀ s t : State, step s = .next t → t.engine.h ≠ s.engine.h →
    s.mover = some .reset ∨
    (s.EngineMoves ∧
      (decode s.engine.cmdl = .command .init ∨
       (s.engine.ph = .accum ∧ (decode s.engine.cmdl = .command .final ∨
        ∃ n, decode s.engine.cmdl = .command (.append n) ∧ 512 ≤ s.engine.nb.toNat + n))))

/-- R16: only APPEND, INIT and reset write LEN; FINALIZE does not. -/
def Obligations.LengthCounterWriters : Prop :=
  ∀ s t : State, step s = .next t → t.engine.len ≠ s.engine.len →
    s.mover = some .reset ∨
    (s.EngineMoves ∧ (decode s.engine.cmdl = .command .init ∨
      (s.engine.ph = .accum ∧ ∃ n, decode s.engine.cmdl = .command (.append n))))

/-- R17: the phase goes to DONE only by a FINALIZE that completes, and back only by INIT or reset. -/
def Obligations.PhaseTransitions : Prop :=
  ∀ s t : State, step s = .next t → t.engine.ph ≠ s.engine.ph →
    (t.engine.ph = .done ∧ s.EngineMoves ∧ decode s.engine.cmdl = .command .final) ∨
    (t.engine.ph = .accum ∧ (s.mover = some .reset ∨ (s.EngineMoves ∧ decode s.engine.cmdl = .command .init)))

/-- R151, R18: an idle engine is made busy by nothing but a CMD write, and a busy one made idle by nothing but its engine
step or reset. -/
def Obligations.BusyChangesOnlyByCmdWriteOrCompletion : Prop :=
  ∀ s t : State, step s = .next t →
    (s.engine.busy = false → t.engine.busy = true → ∃ w, s.WritesReg 0x000 w) ∧
    (s.engine.busy = true → t.engine.busy = false → s.mover = some .engine ∨ s.mover = some .reset)

/-- R135: each error flag is raised by its own cause and by nothing else. -/
def Obligations.ErrorFlagCauses : Prop :=
  ∀ s t : State, step s = .next t → ∀ c, s.engine.flag c = false → t.engine.flag c = true →
    match c with
    | .op => s.EngineMoves ∧ decode s.engine.cmdl = .illegalOp
    | .cnt => s.EngineMoves ∧ decode s.engine.cmdl = .illegalCnt
    | .seq => s.EngineMoves ∧ s.engine.ph = .done ∧
        ((∃ n, decode s.engine.cmdl = .command (.append n)) ∨ decode s.engine.cmdl = .command .final)
    | .ovr => s.engine.busy = true ∧ ∃ w, s.WritesReg 0x000 w

/-- R142, R23: a flag that is set stays set until a STATUS write with a 1 in its bit, or reset; and a flag that is set does
not stop a later command: with it the command has the same effect and keeps it. -/
def Obligations.ErrorFlagsAreSticky : Prop :=
  (∀ s t : State, step s = .next t → ∀ c : ErrCode, s.engine.flag c = true → t.engine.flag c = false →
    s.mover = some .reset ∨ ∃ v : Word32, s.WritesReg 0x004 v ∧ v.getLsbD c.bit = true) ∧
  (∀ (s : State) (i : Instr) (c : ErrCode), ∃ t, exec i s = .next t ∧
    exec i { s with engine := s.engine.setFlag c } = .next { t with engine := t.engine.setFlag c })

/-! Progress and host programs. -/

/-- R165: every accepted command completes (or is abandoned by a reset, R153) after finitely many turns: at most one more
than are planned. That the engine moves first when no turn is planned is the model's form of the fairness (log 2). -/
def Obligations.AcceptedCommandCompletes : Prop :=
  ∀ s : State, s.InWindow → s.engine.busy = true →
    ∃ k t, k ≤ s.turns.length + 1 ∧ Host.Core.run core k s = .next t ∧ t.engine.busy = false

/-- R165, R166: every host program ends. From every state whose accesses lie in the window, every master's program has a
result after some number of steps, and some number of steps leads to a state with no access and no turn left and
BUSY = 0. The order once no turn is planned, on which the end rests, is the model's (log 2). -/
def Obligations.HostProgramsEnd : Prop :=
  ∀ s : State, s.InWindow →
    (∀ k, k < s.masters.length → ∃ n r, runResult k n s = some r) ∧
    ∃ k t, Host.Core.run core k s = .next t ∧ t.Ended

/-- R69, R132: the program `sum` of the only master, from any state of the engine and in any planned order without a reset,
ends, its last 16 reads are WP(msg), and the final engine state holds it. The order once no turn is planned is the
model's (log 2). -/
def Obligations.SumProgramReadsDigest : Prop :=
  ∀ (s : State) (msg : List Byte), .reset ∉ s.turns → s.masters = [⟨sumProgram s.engineBase msg, []⟩] →
    8 * msg.length < 2 ^ 256 →
    ∃ n r pre, runResult 0 n s = some r ∧
      r.reads = pre ++ digestReads s.engineBase (messageDigest (bitsOfBytes msg)) ∧
      r.engine.digest = messageDigest (bitsOfBytes msg) ∧ r.engine.dv = true ∧ r.engine.ph = .done ∧
      r.engine.len.toNat = 8 * msg.length

/-- R70, R133: the program `saltsum` of the only master, for a salt of any length, from any state of the engine and in any
planned order without a reset, ends, its last 16 reads are WP(salt ‖ msg), and the final engine state holds it. The order
once no turn is planned is the model's (log 2). -/
def Obligations.SaltsumProgramReadsDigest : Prop :=
  ∀ (s : State) (salt msg : List Byte), .reset ∉ s.turns → s.masters = [⟨saltsumProgram s.engineBase salt msg, []⟩] →
    8 * (salt.length + msg.length) < 2 ^ 256 →
    ∃ n r pre, runResult 0 n s = some r ∧
      r.reads = pre ++ digestReads s.engineBase (messageDigest (bitsOfBytes (salt ++ msg))) ∧
      r.engine.digest = messageDigest (bitsOfBytes (salt ++ msg)) ∧ r.engine.dv = true ∧ r.engine.ph = .done ∧
      r.engine.len.toNat = 8 * (salt.length + msg.length)

/-- R68: the one-shot program around a bit string appended in groups of at most 64 bits, however it is cut, and around
`appendbits` with the model's own cut (log 24), in any planned order without a reset, ends, and its last 16 reads are WP of
the string. The order once no turn is planned is the model's (log 2). -/
def Obligations.BitProgramReadsDigest : Prop :=
  (∀ (s : State) (groups : List (List Bool)), .reset ∉ s.turns →
    s.masters = [⟨oneShot s.engineBase (appendgroups s.engineBase groups), []⟩] → (∀ g ∈ groups, g.length ≤ 64) →
    groups.flatten.length < 2 ^ 256 →
    ∃ n r pre, runResult 0 n s = some r ∧
      r.reads = pre ++ digestReads s.engineBase (messageDigest groups.flatten) ∧
      r.engine.digest = messageDigest groups.flatten) ∧
  (∀ (s : State) (bits : List Bool), .reset ∉ s.turns →
    s.masters = [⟨oneShot s.engineBase (appendbits s.engineBase bits), []⟩] → bits.length < 2 ^ 256 →
    ∃ n r pre, runResult 0 n s = some r ∧ r.reads = pre ++ digestReads s.engineBase (messageDigest bits) ∧
      r.engine.digest = messageDigest bits)

/-- R156: the three steps of a host that does not know the engine's history, as the only master and in any planned order
without a reset, leave all error flags clear and the accumulator of INIT, whatever the engine was doing. The order once no
turn is planned is the model's (log 2). -/
def Obligations.BootProgramStartsFresh : Prop :=
  ∀ s : State, .reset ∉ s.turns → s.masters = [⟨bootProgram s.engineBase, []⟩] →
    ∃ n r, runResult 0 n s = some r ∧ (∀ c, r.engine.flag c = false) ∧
      r.engine.h = Vector.replicate 8 0 ∧ r.engine.w = Vector.replicate 64 0 ∧ r.engine.nb = 0 ∧ r.engine.len = 0 ∧
      r.engine.ph = .accum

/-- About the model's own record of a master, its remaining accesses and the reads it has made. That a master keeps its
reads is the model's choice (log 17; R166 makes them part of a program's result). The record changes only by that
master's own access, and its reads only grow. That another master's access leaves it alone is the interleaving of R54;
that a reset event does is the model's reading of R152 (log 15). So the reads of a program that has ended stay. -/
def Obligations.MasterRecordChangesOnlyByItsOwnAccess : Prop :=
  ∀ (s t : State) (k : Nat), step s = .next t → t.masters[k]? ≠ s.masters[k]? →
    ∃ m m', s.mover = some (.host k) ∧ s.masters[k]? = some m ∧ m.program ≠ [] ∧ t.masters[k]? = some m' ∧
      m.reads <+: m'.reads
end

