-- ==== Sys2Proof/Laws/State.lean ====
section
/-! SUPPORT. The fields of the engine and of the state after each update, one lemma a field: what an operation writes and
what it leaves. Later proofs cite these and unfold no record update. -/

namespace Sys2Proof.Machine

/-! `Engine.latch`. -/

@[simp] theorem Engine.latch_h (e : Engine) (w : Word32) : (e.latch w).h = e.h := rfl
@[simp] theorem Engine.latch_w (e : Engine) (w : Word32) : (e.latch w).w = e.w := rfl
@[simp] theorem Engine.latch_nb (e : Engine) (w : Word32) : (e.latch w).nb = e.nb := rfl
@[simp] theorem Engine.latch_len (e : Engine) (w : Word32) : (e.latch w).len = e.len := rfl
@[simp] theorem Engine.latch_ph (e : Engine) (w : Word32) : (e.latch w).ph = e.ph := rfl
@[simp] theorem Engine.latch_busy (e : Engine) (w : Word32) : (e.latch w).busy = true := rfl
@[simp] theorem Engine.latch_cmdl (e : Engine) (w : Word32) : (e.latch w).cmdl = w := rfl
@[simp] theorem Engine.latch_dinl (e : Engine) (w : Word32) : (e.latch w).dinl = e.din := rfl
@[simp] theorem Engine.latch_din (e : Engine) (w : Word32) : (e.latch w).din = e.din := rfl
@[simp] theorem Engine.latch_digest (e : Engine) (w : Word32) : (e.latch w).digest = e.digest := rfl
@[simp] theorem Engine.latch_dv (e : Engine) (w : Word32) : (e.latch w).dv = e.dv := rfl
@[simp] theorem Engine.latch_errOp (e : Engine) (w : Word32) : (e.latch w).errOp = e.errOp := rfl
@[simp] theorem Engine.latch_errCnt (e : Engine) (w : Word32) : (e.latch w).errCnt = e.errCnt := rfl
@[simp] theorem Engine.latch_errSeq (e : Engine) (w : Word32) : (e.latch w).errSeq = e.errSeq := rfl
@[simp] theorem Engine.latch_errOvr (e : Engine) (w : Word32) : (e.latch w).errOvr = e.errOvr := rfl

/-! `Engine.complete`. -/

@[simp] theorem Engine.complete_h (e : Engine) : (e.complete).h = e.h := rfl
@[simp] theorem Engine.complete_w (e : Engine) : (e.complete).w = e.w := rfl
@[simp] theorem Engine.complete_nb (e : Engine) : (e.complete).nb = e.nb := rfl
@[simp] theorem Engine.complete_len (e : Engine) : (e.complete).len = e.len := rfl
@[simp] theorem Engine.complete_ph (e : Engine) : (e.complete).ph = e.ph := rfl
@[simp] theorem Engine.complete_busy (e : Engine) : (e.complete).busy = false := rfl
@[simp] theorem Engine.complete_cmdl (e : Engine) : (e.complete).cmdl = e.cmdl := rfl
@[simp] theorem Engine.complete_dinl (e : Engine) : (e.complete).dinl = e.dinl := rfl
@[simp] theorem Engine.complete_din (e : Engine) : (e.complete).din = e.din := rfl
@[simp] theorem Engine.complete_digest (e : Engine) : (e.complete).digest = e.digest := rfl
@[simp] theorem Engine.complete_dv (e : Engine) : (e.complete).dv = e.dv := rfl
@[simp] theorem Engine.complete_errOp (e : Engine) : (e.complete).errOp = e.errOp := rfl
@[simp] theorem Engine.complete_errCnt (e : Engine) : (e.complete).errCnt = e.errCnt := rfl
@[simp] theorem Engine.complete_errSeq (e : Engine) : (e.complete).errSeq = e.errSeq := rfl
@[simp] theorem Engine.complete_errOvr (e : Engine) : (e.complete).errOvr = e.errOvr := rfl

/-! `Engine.clearFlags`. -/

@[simp] theorem Engine.clearFlags_h (e : Engine) (v : Word32) : (e.clearFlags v).h = e.h := rfl
@[simp] theorem Engine.clearFlags_w (e : Engine) (v : Word32) : (e.clearFlags v).w = e.w := rfl
@[simp] theorem Engine.clearFlags_nb (e : Engine) (v : Word32) : (e.clearFlags v).nb = e.nb := rfl
@[simp] theorem Engine.clearFlags_len (e : Engine) (v : Word32) : (e.clearFlags v).len = e.len := rfl
@[simp] theorem Engine.clearFlags_ph (e : Engine) (v : Word32) : (e.clearFlags v).ph = e.ph := rfl
@[simp] theorem Engine.clearFlags_busy (e : Engine) (v : Word32) : (e.clearFlags v).busy = e.busy := rfl
@[simp] theorem Engine.clearFlags_cmdl (e : Engine) (v : Word32) : (e.clearFlags v).cmdl = e.cmdl := rfl
@[simp] theorem Engine.clearFlags_dinl (e : Engine) (v : Word32) : (e.clearFlags v).dinl = e.dinl := rfl
@[simp] theorem Engine.clearFlags_din (e : Engine) (v : Word32) : (e.clearFlags v).din = e.din := rfl
@[simp] theorem Engine.clearFlags_digest (e : Engine) (v : Word32) : (e.clearFlags v).digest = e.digest := rfl
@[simp] theorem Engine.clearFlags_dv (e : Engine) (v : Word32) : (e.clearFlags v).dv = e.dv := rfl
@[simp] theorem Engine.clearFlags_errOp (e : Engine) (v : Word32) : (e.clearFlags v).errOp = (e.errOp && !v.getLsbD 4) := rfl
@[simp] theorem Engine.clearFlags_errCnt (e : Engine) (v : Word32) : (e.clearFlags v).errCnt = (e.errCnt && !v.getLsbD 5) := rfl
@[simp] theorem Engine.clearFlags_errSeq (e : Engine) (v : Word32) : (e.clearFlags v).errSeq = (e.errSeq && !v.getLsbD 6) := rfl
@[simp] theorem Engine.clearFlags_errOvr (e : Engine) (v : Word32) : (e.clearFlags v).errOvr = (e.errOvr && !v.getLsbD 7) := rfl

/-! `Engine.blockDone`. -/

@[simp] theorem Engine.blockDone_h (e : Engine) : (e.blockDone).h = compress e.w e.h := rfl
@[simp] theorem Engine.blockDone_w (e : Engine) : (e.blockDone).w = zeroBlock := rfl
@[simp] theorem Engine.blockDone_nb (e : Engine) : (e.blockDone).nb = 0 := rfl
@[simp] theorem Engine.blockDone_len (e : Engine) : (e.blockDone).len = e.len := rfl
@[simp] theorem Engine.blockDone_ph (e : Engine) : (e.blockDone).ph = e.ph := rfl
@[simp] theorem Engine.blockDone_busy (e : Engine) : (e.blockDone).busy = e.busy := rfl
@[simp] theorem Engine.blockDone_cmdl (e : Engine) : (e.blockDone).cmdl = e.cmdl := rfl
@[simp] theorem Engine.blockDone_dinl (e : Engine) : (e.blockDone).dinl = e.dinl := rfl
@[simp] theorem Engine.blockDone_din (e : Engine) : (e.blockDone).din = e.din := rfl
@[simp] theorem Engine.blockDone_digest (e : Engine) : (e.blockDone).digest = e.digest := rfl
@[simp] theorem Engine.blockDone_dv (e : Engine) : (e.blockDone).dv = e.dv := rfl
@[simp] theorem Engine.blockDone_errOp (e : Engine) : (e.blockDone).errOp = e.errOp := rfl
@[simp] theorem Engine.blockDone_errCnt (e : Engine) : (e.blockDone).errCnt = e.errCnt := rfl
@[simp] theorem Engine.blockDone_errSeq (e : Engine) : (e.blockDone).errSeq = e.errSeq := rfl
@[simp] theorem Engine.blockDone_errOvr (e : Engine) : (e.blockDone).errOvr = e.errOvr := rfl

/-! `Engine.init`. -/

@[simp] theorem Engine.init_h (e : Engine) : (e.init).h = zeroWords := rfl
@[simp] theorem Engine.init_w (e : Engine) : (e.init).w = zeroBlock := rfl
@[simp] theorem Engine.init_nb (e : Engine) : (e.init).nb = 0 := rfl
@[simp] theorem Engine.init_len (e : Engine) : (e.init).len = 0 := rfl
@[simp] theorem Engine.init_ph (e : Engine) : (e.init).ph = .accum := rfl
@[simp] theorem Engine.init_busy (e : Engine) : (e.init).busy = e.busy := rfl
@[simp] theorem Engine.init_cmdl (e : Engine) : (e.init).cmdl = e.cmdl := rfl
@[simp] theorem Engine.init_dinl (e : Engine) : (e.init).dinl = e.dinl := rfl
@[simp] theorem Engine.init_din (e : Engine) : (e.init).din = e.din := rfl
@[simp] theorem Engine.init_digest (e : Engine) : (e.init).digest = e.digest := rfl
@[simp] theorem Engine.init_dv (e : Engine) : (e.init).dv = e.dv := rfl
@[simp] theorem Engine.init_errOp (e : Engine) : (e.init).errOp = e.errOp := rfl
@[simp] theorem Engine.init_errCnt (e : Engine) : (e.init).errCnt = e.errCnt := rfl
@[simp] theorem Engine.init_errSeq (e : Engine) : (e.init).errSeq = e.errSeq := rfl
@[simp] theorem Engine.init_errOvr (e : Engine) : (e.init).errOvr = e.errOvr := rfl

/-! `Engine.padBit`. -/

@[simp] theorem Engine.padBit_h (e : Engine) : (e.padBit).h = e.h := rfl
@[simp] theorem Engine.padBit_w (e : Engine) : (e.padBit).w = setBlockBit e.w e.nb.toNat true := rfl
@[simp] theorem Engine.padBit_nb (e : Engine) : (e.padBit).nb = e.nb := rfl
@[simp] theorem Engine.padBit_len (e : Engine) : (e.padBit).len = e.len := rfl
@[simp] theorem Engine.padBit_ph (e : Engine) : (e.padBit).ph = e.ph := rfl
@[simp] theorem Engine.padBit_busy (e : Engine) : (e.padBit).busy = e.busy := rfl
@[simp] theorem Engine.padBit_cmdl (e : Engine) : (e.padBit).cmdl = e.cmdl := rfl
@[simp] theorem Engine.padBit_dinl (e : Engine) : (e.padBit).dinl = e.dinl := rfl
@[simp] theorem Engine.padBit_din (e : Engine) : (e.padBit).din = e.din := rfl
@[simp] theorem Engine.padBit_digest (e : Engine) : (e.padBit).digest = e.digest := rfl
@[simp] theorem Engine.padBit_dv (e : Engine) : (e.padBit).dv = e.dv := rfl
@[simp] theorem Engine.padBit_errOp (e : Engine) : (e.padBit).errOp = e.errOp := rfl
@[simp] theorem Engine.padBit_errCnt (e : Engine) : (e.padBit).errCnt = e.errCnt := rfl
@[simp] theorem Engine.padBit_errSeq (e : Engine) : (e.padBit).errSeq = e.errSeq := rfl
@[simp] theorem Engine.padBit_errOvr (e : Engine) : (e.padBit).errOvr = e.errOvr := rfl

/-! `Engine.spill`. -/

@[simp] theorem Engine.spill_h (e : Engine) (fc : Nat) : (e.spill fc).h = compress (zeroBytes e.w fc 64) e.h := rfl
@[simp] theorem Engine.spill_w (e : Engine) (fc : Nat) : (e.spill fc).w = zeroBlock := rfl
@[simp] theorem Engine.spill_nb (e : Engine) (fc : Nat) : (e.spill fc).nb = e.nb := rfl
@[simp] theorem Engine.spill_len (e : Engine) (fc : Nat) : (e.spill fc).len = e.len := rfl
@[simp] theorem Engine.spill_ph (e : Engine) (fc : Nat) : (e.spill fc).ph = e.ph := rfl
@[simp] theorem Engine.spill_busy (e : Engine) (fc : Nat) : (e.spill fc).busy = e.busy := rfl
@[simp] theorem Engine.spill_cmdl (e : Engine) (fc : Nat) : (e.spill fc).cmdl = e.cmdl := rfl
@[simp] theorem Engine.spill_dinl (e : Engine) (fc : Nat) : (e.spill fc).dinl = e.dinl := rfl
@[simp] theorem Engine.spill_din (e : Engine) (fc : Nat) : (e.spill fc).din = e.din := rfl
@[simp] theorem Engine.spill_digest (e : Engine) (fc : Nat) : (e.spill fc).digest = e.digest := rfl
@[simp] theorem Engine.spill_dv (e : Engine) (fc : Nat) : (e.spill fc).dv = e.dv := rfl
@[simp] theorem Engine.spill_errOp (e : Engine) (fc : Nat) : (e.spill fc).errOp = e.errOp := rfl
@[simp] theorem Engine.spill_errCnt (e : Engine) (fc : Nat) : (e.spill fc).errCnt = e.errCnt := rfl
@[simp] theorem Engine.spill_errSeq (e : Engine) (fc : Nat) : (e.spill fc).errSeq = e.errSeq := rfl
@[simp] theorem Engine.spill_errOvr (e : Engine) (fc : Nat) : (e.spill fc).errOvr = e.errOvr := rfl

/-! `Engine.fillToLength`. -/

@[simp] theorem Engine.fillToLength_h (e : Engine) (fc : Nat) : (e.fillToLength fc).h = e.h := rfl
@[simp] theorem Engine.fillToLength_w (e : Engine) (fc : Nat) : (e.fillToLength fc).w = zeroBytes e.w fc 32 := rfl
@[simp] theorem Engine.fillToLength_nb (e : Engine) (fc : Nat) : (e.fillToLength fc).nb = e.nb := rfl
@[simp] theorem Engine.fillToLength_len (e : Engine) (fc : Nat) : (e.fillToLength fc).len = e.len := rfl
@[simp] theorem Engine.fillToLength_ph (e : Engine) (fc : Nat) : (e.fillToLength fc).ph = e.ph := rfl
@[simp] theorem Engine.fillToLength_busy (e : Engine) (fc : Nat) : (e.fillToLength fc).busy = e.busy := rfl
@[simp] theorem Engine.fillToLength_cmdl (e : Engine) (fc : Nat) : (e.fillToLength fc).cmdl = e.cmdl := rfl
@[simp] theorem Engine.fillToLength_dinl (e : Engine) (fc : Nat) : (e.fillToLength fc).dinl = e.dinl := rfl
@[simp] theorem Engine.fillToLength_din (e : Engine) (fc : Nat) : (e.fillToLength fc).din = e.din := rfl
@[simp] theorem Engine.fillToLength_digest (e : Engine) (fc : Nat) : (e.fillToLength fc).digest = e.digest := rfl
@[simp] theorem Engine.fillToLength_dv (e : Engine) (fc : Nat) : (e.fillToLength fc).dv = e.dv := rfl
@[simp] theorem Engine.fillToLength_errOp (e : Engine) (fc : Nat) : (e.fillToLength fc).errOp = e.errOp := rfl
@[simp] theorem Engine.fillToLength_errCnt (e : Engine) (fc : Nat) : (e.fillToLength fc).errCnt = e.errCnt := rfl
@[simp] theorem Engine.fillToLength_errSeq (e : Engine) (fc : Nat) : (e.fillToLength fc).errSeq = e.errSeq := rfl
@[simp] theorem Engine.fillToLength_errOvr (e : Engine) (fc : Nat) : (e.fillToLength fc).errOvr = e.errOvr := rfl

/-! `Engine.writeLength`. -/

@[simp] theorem Engine.writeLength_h (e : Engine) : (e.writeLength).h = e.h := rfl
@[simp] theorem Engine.writeLength_w (e : Engine) : (e.writeLength).w = withLength e.w e.len := rfl
@[simp] theorem Engine.writeLength_nb (e : Engine) : (e.writeLength).nb = e.nb := rfl
@[simp] theorem Engine.writeLength_len (e : Engine) : (e.writeLength).len = e.len := rfl
@[simp] theorem Engine.writeLength_ph (e : Engine) : (e.writeLength).ph = e.ph := rfl
@[simp] theorem Engine.writeLength_busy (e : Engine) : (e.writeLength).busy = e.busy := rfl
@[simp] theorem Engine.writeLength_cmdl (e : Engine) : (e.writeLength).cmdl = e.cmdl := rfl
@[simp] theorem Engine.writeLength_dinl (e : Engine) : (e.writeLength).dinl = e.dinl := rfl
@[simp] theorem Engine.writeLength_din (e : Engine) : (e.writeLength).din = e.din := rfl
@[simp] theorem Engine.writeLength_digest (e : Engine) : (e.writeLength).digest = e.digest := rfl
@[simp] theorem Engine.writeLength_dv (e : Engine) : (e.writeLength).dv = e.dv := rfl
@[simp] theorem Engine.writeLength_errOp (e : Engine) : (e.writeLength).errOp = e.errOp := rfl
@[simp] theorem Engine.writeLength_errCnt (e : Engine) : (e.writeLength).errCnt = e.errCnt := rfl
@[simp] theorem Engine.writeLength_errSeq (e : Engine) : (e.writeLength).errSeq = e.errSeq := rfl
@[simp] theorem Engine.writeLength_errOvr (e : Engine) : (e.writeLength).errOvr = e.errOvr := rfl

/-! `Engine.compressLast`. -/

@[simp] theorem Engine.compressLast_h (e : Engine) : (e.compressLast).h = compress e.w e.h := rfl
@[simp] theorem Engine.compressLast_w (e : Engine) : (e.compressLast).w = e.w := rfl
@[simp] theorem Engine.compressLast_nb (e : Engine) : (e.compressLast).nb = e.nb := rfl
@[simp] theorem Engine.compressLast_len (e : Engine) : (e.compressLast).len = e.len := rfl
@[simp] theorem Engine.compressLast_ph (e : Engine) : (e.compressLast).ph = e.ph := rfl
@[simp] theorem Engine.compressLast_busy (e : Engine) : (e.compressLast).busy = e.busy := rfl
@[simp] theorem Engine.compressLast_cmdl (e : Engine) : (e.compressLast).cmdl = e.cmdl := rfl
@[simp] theorem Engine.compressLast_dinl (e : Engine) : (e.compressLast).dinl = e.dinl := rfl
@[simp] theorem Engine.compressLast_din (e : Engine) : (e.compressLast).din = e.din := rfl
@[simp] theorem Engine.compressLast_digest (e : Engine) : (e.compressLast).digest = e.digest := rfl
@[simp] theorem Engine.compressLast_dv (e : Engine) : (e.compressLast).dv = e.dv := rfl
@[simp] theorem Engine.compressLast_errOp (e : Engine) : (e.compressLast).errOp = e.errOp := rfl
@[simp] theorem Engine.compressLast_errCnt (e : Engine) : (e.compressLast).errCnt = e.errCnt := rfl
@[simp] theorem Engine.compressLast_errSeq (e : Engine) : (e.compressLast).errSeq = e.errSeq := rfl
@[simp] theorem Engine.compressLast_errOvr (e : Engine) : (e.compressLast).errOvr = e.errOvr := rfl

/-! `Engine.output`. -/

@[simp] theorem Engine.output_h (e : Engine) : (e.output).h = e.h := rfl
@[simp] theorem Engine.output_w (e : Engine) : (e.output).w = zeroBlock := rfl
@[simp] theorem Engine.output_nb (e : Engine) : (e.output).nb = 0 := rfl
@[simp] theorem Engine.output_len (e : Engine) : (e.output).len = e.len := rfl
@[simp] theorem Engine.output_ph (e : Engine) : (e.output).ph = .done := rfl
@[simp] theorem Engine.output_busy (e : Engine) : (e.output).busy = e.busy := rfl
@[simp] theorem Engine.output_cmdl (e : Engine) : (e.output).cmdl = e.cmdl := rfl
@[simp] theorem Engine.output_dinl (e : Engine) : (e.output).dinl = e.dinl := rfl
@[simp] theorem Engine.output_din (e : Engine) : (e.output).din = e.din := rfl
@[simp] theorem Engine.output_digest (e : Engine) : (e.output).digest = serWords e.h := rfl
@[simp] theorem Engine.output_dv (e : Engine) : (e.output).dv = true := rfl
@[simp] theorem Engine.output_errOp (e : Engine) : (e.output).errOp = e.errOp := rfl
@[simp] theorem Engine.output_errCnt (e : Engine) : (e.output).errCnt = e.errCnt := rfl
@[simp] theorem Engine.output_errSeq (e : Engine) : (e.output).errSeq = e.errSeq := rfl
@[simp] theorem Engine.output_errOvr (e : Engine) : (e.output).errOvr = e.errOvr := rfl

/-! `Engine.raise`. -/

@[simp] theorem Engine.raise_h (e : Engine) (c : ErrCode) : (e.raise c).h = e.h := by cases c <;> rfl
@[simp] theorem Engine.raise_w (e : Engine) (c : ErrCode) : (e.raise c).w = e.w := by cases c <;> rfl
@[simp] theorem Engine.raise_nb (e : Engine) (c : ErrCode) : (e.raise c).nb = e.nb := by cases c <;> rfl
@[simp] theorem Engine.raise_len (e : Engine) (c : ErrCode) : (e.raise c).len = e.len := by cases c <;> rfl
@[simp] theorem Engine.raise_ph (e : Engine) (c : ErrCode) : (e.raise c).ph = e.ph := by cases c <;> rfl
@[simp] theorem Engine.raise_busy (e : Engine) (c : ErrCode) : (e.raise c).busy = e.busy := by cases c <;> rfl
@[simp] theorem Engine.raise_cmdl (e : Engine) (c : ErrCode) : (e.raise c).cmdl = e.cmdl := by cases c <;> rfl
@[simp] theorem Engine.raise_dinl (e : Engine) (c : ErrCode) : (e.raise c).dinl = e.dinl := by cases c <;> rfl
@[simp] theorem Engine.raise_din (e : Engine) (c : ErrCode) : (e.raise c).din = e.din := by cases c <;> rfl
@[simp] theorem Engine.raise_digest (e : Engine) (c : ErrCode) : (e.raise c).digest = e.digest := by cases c <;> rfl
@[simp] theorem Engine.raise_dv (e : Engine) (c : ErrCode) : (e.raise c).dv = e.dv := by cases c <;> rfl
@[simp] theorem Engine.raise_op_errOp (e : Engine) : (e.raise .op).errOp = true := rfl
@[simp] theorem Engine.raise_op_errCnt (e : Engine) : (e.raise .op).errCnt = e.errCnt := rfl
@[simp] theorem Engine.raise_op_errSeq (e : Engine) : (e.raise .op).errSeq = e.errSeq := rfl
@[simp] theorem Engine.raise_op_errOvr (e : Engine) : (e.raise .op).errOvr = e.errOvr := rfl
@[simp] theorem Engine.raise_cnt_errOp (e : Engine) : (e.raise .cnt).errOp = e.errOp := rfl
@[simp] theorem Engine.raise_cnt_errCnt (e : Engine) : (e.raise .cnt).errCnt = true := rfl
@[simp] theorem Engine.raise_cnt_errSeq (e : Engine) : (e.raise .cnt).errSeq = e.errSeq := rfl
@[simp] theorem Engine.raise_cnt_errOvr (e : Engine) : (e.raise .cnt).errOvr = e.errOvr := rfl
@[simp] theorem Engine.raise_seq_errOp (e : Engine) : (e.raise .seq).errOp = e.errOp := rfl
@[simp] theorem Engine.raise_seq_errCnt (e : Engine) : (e.raise .seq).errCnt = e.errCnt := rfl
@[simp] theorem Engine.raise_seq_errSeq (e : Engine) : (e.raise .seq).errSeq = true := rfl
@[simp] theorem Engine.raise_seq_errOvr (e : Engine) : (e.raise .seq).errOvr = e.errOvr := rfl
@[simp] theorem Engine.raise_ovr_errOp (e : Engine) : (e.raise .ovr).errOp = e.errOp := rfl
@[simp] theorem Engine.raise_ovr_errCnt (e : Engine) : (e.raise .ovr).errCnt = e.errCnt := rfl
@[simp] theorem Engine.raise_ovr_errSeq (e : Engine) : (e.raise .ovr).errSeq = e.errSeq := rfl
@[simp] theorem Engine.raise_ovr_errOvr (e : Engine) : (e.raise .ovr).errOvr = true := rfl

/-- Raising an error sets its own flag and leaves the other three (R138). -/
theorem Engine.raise_flag (e : Engine) (c d : ErrCode) : (e.raise c).flag d = (decide (c = d) || e.flag d) := by
  cases c <;> cases d <;> rfl

/-! `State.mapEngine`, `State.setMaster` and the operations built on them. -/

@[simp] theorem State.mapEngine_engine (s : State) (f : Engine → Engine) : (s.mapEngine f).engine = f s.engine := rfl
@[simp] theorem State.mapEngine_engineBase (s : State) (f : Engine → Engine) : (s.mapEngine f).engineBase = s.engineBase := rfl
@[simp] theorem State.mapEngine_masters (s : State) (f : Engine → Engine) : (s.mapEngine f).masters = s.masters := rfl
@[simp] theorem State.mapEngine_turns (s : State) (f : Engine → Engine) : (s.mapEngine f).turns = s.turns := rfl

@[simp] theorem State.setMaster_engine (s : State) (k : Nat) (m : Master) : (s.setMaster k m).engine = s.engine := rfl
@[simp] theorem State.setMaster_engineBase (s : State) (k : Nat) (m : Master) : (s.setMaster k m).engineBase = s.engineBase := rfl
@[simp] theorem State.setMaster_masters (s : State) (k : Nat) (m : Master) : (s.setMaster k m).masters = s.masters.set k m := rfl
@[simp] theorem State.setMaster_turns (s : State) (k : Nat) (m : Master) : (s.setMaster k m).turns = s.turns := rfl

@[simp] theorem State.complete_engine (s : State) : (s.complete).engine = s.engine.complete := rfl
@[simp] theorem State.complete_engineBase (s : State) : (s.complete).engineBase = s.engineBase := rfl
@[simp] theorem State.complete_masters (s : State) : (s.complete).masters = s.masters := rfl
@[simp] theorem State.complete_turns (s : State) : (s.complete).turns = s.turns := rfl

@[simp] theorem State.reject_engine (s : State) (c : ErrCode) : (s.reject c).engine = (s.engine.raise c).complete := rfl
@[simp] theorem State.reject_engineBase (s : State) (c : ErrCode) : (s.reject c).engineBase = s.engineBase := rfl
@[simp] theorem State.reject_masters (s : State) (c : ErrCode) : (s.reject c).masters = s.masters := rfl
@[simp] theorem State.reject_turns (s : State) (c : ErrCode) : (s.reject c).turns = s.turns := rfl

@[simp] theorem State.issue_engine (s : State) (w : Word32) : (s.issue w).engine = s.engine.latch w := rfl
@[simp] theorem State.issue_engineBase (s : State) (w : Word32) : (s.issue w).engineBase = s.engineBase := rfl
@[simp] theorem State.issue_masters (s : State) (w : Word32) : (s.issue w).masters = s.masters := rfl
@[simp] theorem State.issue_turns (s : State) (w : Word32) : (s.issue w).turns = .engine :: s.turns := rfl

@[simp] theorem State.popTurn_engine (s : State) : (s.popTurn).engine = s.engine := rfl
@[simp] theorem State.popTurn_engineBase (s : State) : (s.popTurn).engineBase = s.engineBase := rfl
@[simp] theorem State.popTurn_masters (s : State) : (s.popTurn).masters = s.masters := rfl
@[simp] theorem State.popTurn_turns (s : State) : (s.popTurn).turns = s.turns.tail := rfl

@[simp] theorem resetTurn_engine (s : State) : (resetTurn s).engine = Engine.reset := rfl
@[simp] theorem resetTurn_engineBase (s : State) : (resetTurn s).engineBase = s.engineBase := rfl
@[simp] theorem resetTurn_masters (s : State) : (resetTurn s).masters = s.masters := rfl
@[simp] theorem resetTurn_turns (s : State) : (resetTurn s).turns = s.turns := rfl

@[simp] theorem State.mapEngine_mapEngine (s : State) (f g : Engine → Engine) :
    (s.mapEngine f).mapEngine g = s.mapEngine fun e => g (f e) := rfl

end Sys2Proof.Machine
end

