-- ==== Sys2Proof/Laws/Ops.lean ====
section
/-! SUPPORT. The shared operations on bytes, blocks and words: what each view reads after each write. -/

namespace Sys2Proof.Machine

/-! Bytes. -/

theorem getMsbD_topBit (k : Nat) : (0x80#8).getMsbD k = decide (k = 0) := by
  by_cases h : k < 8
  · have key : ∀ k : Fin 8, (0x80#8).getMsbD k = decide (k.val = 0) := by decide
    exact key ⟨k, h⟩
  · rw [BitVec.getMsbD_of_ge _ _ (by omega)]; simp; omega

theorem byteBit_setByteBit (b : Byte) {q q' : Nat} (hq : q < 8) (hq' : q' < 8) (m : Bool) :
    byteBit (setByteBit b q m) q' = if q' = q then m else byteBit b q' := by
  unfold byteBit setByteBit
  rw [BitVec.getMsbD_or, BitVec.getMsbD_and, BitVec.getMsbD_not, BitVec.getMsbD_ushiftRight, getMsbD_topBit]
  have h1 : (if m then 0x80#8 >>> q else 0).getMsbD q' = (m && decide (q' = q)) := by
    cases m
    · simp
    · rw [if_pos rfl, BitVec.getMsbD_ushiftRight, getMsbD_topBit, Bool.true_and]
      by_cases h : q' = q
      · simp [h, hq]
      · simp only [h, decide_false]; simp; omega
  rw [h1]
  by_cases h : q' = q
  · simp [h, hq]
  · by_cases h2 : q' < q
    · simp [h, h2, hq']
    · simp [h, h2, hq']; omega

theorem byte_ext {a b : Byte} (h : ∀ q, q < 8 → byteBit a q = byteBit b q) : a = b :=
  BitVec.eq_of_getMsbD_eq fun q hq => h q hq

@[simp] theorem byteBit_zero (q : Nat) : byteBit 0#8 q = false := by simp [byteBit]

@[simp] theorem byteBit_leftJustify (bits : List Bool) {q : Nat} (hq : q < 8) :
    byteBit (leftJustify 8 bits) q = bits.getD q false := by
  simp [byteBit, leftJustify, BitVec.getMsbD_ofFnBE, hq]

/-! Blocks, byte by byte. -/

theorem blockByte_eq (w : Block) {k : Nat} (hk : k < 64) : blockByte w k = w[k] := by simp [blockByte, hk]

theorem block_ext_bytes {a b : Block} (h : ∀ k, k < 64 → blockByte a k = blockByte b k) : a = b := by
  apply Vector.ext
  intro k hk
  simpa [blockByte_eq, hk] using h k hk

@[simp] theorem blockByte_zeroBlock (k : Nat) : blockByte zeroBlock k = 0 := by
  unfold blockByte zeroBlock
  by_cases hk : k < 64 <;> simp [hk]

theorem blockByte_setBlockByte (w : Block) {k k' : Nat} (hk : k < 64) (b : Byte) :
    blockByte (setBlockByte w k b) k' = if k' = k then b else blockByte w k' := by
  unfold blockByte setBlockByte
  by_cases h : k' = k
  · subst h; simp [hk]
  · simp [h, Ne.symm h]

theorem blockByte_zeroBytes (w : Block) (lo hi : Nat) {k : Nat} (hk : k < 64) :
    blockByte (zeroBytes w lo hi) k = if lo ≤ k ∧ k < hi then 0 else blockByte w k := by
  simp [blockByte_eq, hk, zeroBytes]

theorem blockByte_withLength (w : Block) (len : Length) {k : Nat} (hk : k < 64) :
    blockByte (withLength w len) k = if k < 32 then blockByte w k else lenByte len (k - 32) := by
  simp [blockByte_eq, hk, withLength]

theorem blockByte_serWords (h : Words) (i : Fin 8) {k : Nat} (hk : k < 8) :
    blockByte (serWords h) (8 * i.val + k) = byteOf k h[i] := by
  have hp : 8 * i.val + k < 64 := by omega
  have h1 : (8 * i.val + k) % 8 = k := by omega
  have h2 : (8 * i.val + k) / 8 = i.val := by omega
  simp [blockByte_eq, hp, serWords, h1, h2]

/-! Blocks, bit by bit. -/

theorem block_ext_bits {a b : Block} (h : ∀ p, p < 512 → blockBit a p = blockBit b p) : a = b := by
  apply block_ext_bytes
  intro k hk
  apply byte_ext
  intro q hq
  have := h (8 * k + q) (by omega)
  rwa [blockBit, blockBit, show (8 * k + q) / 8 = k by omega, show (8 * k + q) % 8 = q by omega] at this

@[simp] theorem blockBit_zeroBlock (p : Nat) : blockBit zeroBlock p = false := by simp [blockBit]

theorem blockBit_setBlockBit (w : Block) {p p' : Nat} (hp : p < 512) (m : Bool) :
    blockBit (setBlockBit w p m) p' = if p' = p then m else blockBit w p' := by
  unfold blockBit setBlockBit
  rw [blockByte_setBlockByte _ (by omega)]
  by_cases h : p' / 8 = p / 8
  · rw [if_pos h, byteBit_setByteBit _ (by omega) (by omega), h]
    by_cases h' : p' = p
    · simp [h']
    · rw [if_neg h', if_neg (by omega)]
  · rw [if_neg h, if_neg (by rintro rfl; exact h rfl)]

theorem blockBit_zeroBytes (w : Block) (lo hi : Nat) {p : Nat} (hp : p < 512) :
    blockBit (zeroBytes w lo hi) p = if lo ≤ p / 8 ∧ p / 8 < hi then false else blockBit w p := by
  unfold blockBit
  rw [blockByte_zeroBytes _ _ _ (by omega)]
  split <;> simp

theorem byteBit_lenByte (len : Length) {k q : Nat} (hk : k < 32) (hq : q < 8) :
    byteBit (lenByte len k) q = len.getMsbD (8 * k + q) := by
  simp only [byteBit, lenByte, BitVec.getMsbD, BitVec.getLsbD_extractLsb']
  have e : 248 - 8 * k + (8 - 1 - q) = 256 - 1 - (8 * k + q) := by omega
  simp only [hq, decide_true, Bool.true_and, e, show 8 * k + q < 256 by omega, show 8 - 1 - q < 8 by omega]

theorem blockBit_withLength (w : Block) (len : Length) {p : Nat} (hp : p < 512) :
    blockBit (withLength w len) p = if p < 256 then blockBit w p else len.getMsbD (p - 256) := by
  unfold blockBit
  rw [blockByte_withLength _ _ (by omega)]
  by_cases h : p < 256
  · rw [if_pos (by omega), if_pos h]
  · rw [if_neg (by omega), if_neg h, byteBit_lenByte _ (by omega) (by omega),
      show 8 * (p / 8 - 32) + p % 8 = p - 256 by omega]

/-! Operands. -/

@[simp] theorem length_chunk (n : Nat) (d : Word64) : (chunk n d).length = n := by simp [chunk]

theorem getD_chunk (n : Nat) (d : Word64) (k : Nat) : (chunk n d).getD k false = (decide (k < n) && dataBit d k) := by
  by_cases h : k < n <;> simp [chunk, h]

theorem dataBit_leftJustify (bits : List Bool) {k : Nat} (hk : k < 64) :
    dataBit (leftJustify 64 bits) k = bits.getD k false := by
  simp [dataBit, leftJustify, BitVec.getMsbD_ofFnBE, hk]

/-- The chunk that an APPEND reads back from bits laid out left-justified is those bits (R63, R83). -/
theorem chunk_leftJustify {bits : List Bool} (h : bits.length ≤ 64) : chunk bits.length (leftJustify 64 bits) = bits := by
  apply List.ext_getElem (by simp)
  intro k h1 h2
  simp only [chunk, List.getElem_map, List.getElem_range]
  rw [dataBit_leftJustify _ (by omega)]
  simp [h2]

end Sys2Proof.Machine
end

