-- ==== Sys2Proof/Laws/Engine.lean ====
section
/-! SUPPORT. What ABSORB, APPEND and FINALIZE do to the engine, said once: ABSORB writes H, W and NB only; APPEND in phase
ACCUM writes LEN besides; FINALIZE in phase ACCUM leaves LEN, the latch, DIN and the error flags. -/

namespace Sys2Proof.Machine

/-! ABSORB (R85, R86). -/

theorem Engine.absorb_of_lt (e : Engine) (m : Bool) (h : e.nb.toNat + 1 < 512) :
    e.absorb m = { e with w := setBlockBit e.w e.nb.toNat m, nb := e.nb + 1 } := by
  unfold Engine.absorb
  rw [if_neg (by simp only [Config.blockBits]; omega)]

theorem Engine.absorb_of_full (e : Engine) (m : Bool) (h : e.nb.toNat + 1 = 512) :
    e.absorb m = { e with h := compress (setBlockBit e.w e.nb.toNat m) e.h, w := zeroBlock, nb := 0 } := by
  unfold Engine.absorb
  rw [if_pos (by simpa only [Config.blockBits] using h)]
  rfl

/-- ABSORB writes H, W and NB and nothing else. -/
theorem Engine.absorb_frame (e : Engine) (m : Bool) :
    e.absorb m = { e with h := (e.absorb m).h, w := (e.absorb m).w, nb := (e.absorb m).nb } := by
  by_cases h : e.nb.toNat + 1 = 512
  · rw [e.absorb_of_full m h]
  · rw [e.absorb_of_lt m (by omega)]

@[simp] theorem Engine.absorbBits_nil (e : Engine) : e.absorbBits [] = e := rfl

@[simp] theorem Engine.absorbBits_cons (e : Engine) (m : Bool) (ms : List Bool) :
    e.absorbBits (m :: ms) = (e.absorb m).absorbBits ms := rfl

theorem Engine.absorbBits_append (e : Engine) (ms ns : List Bool) :
    e.absorbBits (ms ++ ns) = (e.absorbBits ms).absorbBits ns := by simp [Engine.absorbBits]

theorem Engine.absorbBits_concat (e : Engine) (ms : List Bool) (m : Bool) :
    e.absorbBits (ms ++ [m]) = (e.absorbBits ms).absorb m := by simp [Engine.absorbBits]

/-- The accumulator part of the state, H, W and NB, replaced. -/
def Engine.withAccumulator (e a : Engine) : Engine := { e with h := a.h, w := a.w, nb := a.nb }

/-- ABSORB reads H, W and NB only. -/
theorem Engine.absorb_withAccumulator (e a : Engine) (m : Bool) :
    (e.withAccumulator a).absorb m = e.withAccumulator (a.absorb m) := by
  have hlt := a.nb.isLt
  by_cases h : a.nb.toNat + 1 = 512
  · rw [(e.withAccumulator a).absorb_of_full m h, a.absorb_of_full m h]; rfl
  · have h' : a.nb.toNat + 1 < 512 := by omega
    rw [(e.withAccumulator a).absorb_of_lt m h', a.absorb_of_lt m h']; rfl

theorem Engine.absorbBits_withAccumulator (e a : Engine) (ms : List Bool) :
    (e.withAccumulator a).absorbBits ms = e.withAccumulator (a.absorbBits ms) := by
  induction ms generalizing a with
  | nil => rfl
  | cons m ms ih => rw [absorbBits_cons, absorb_withAccumulator, ih, absorbBits_cons]

/-- ABSORB of a chunk writes H, W and NB and nothing else. -/
theorem Engine.absorbBits_frame (e : Engine) (ms : List Bool) :
    e.absorbBits ms = e.withAccumulator (e.absorbBits ms) := by
  have := Engine.absorbBits_withAccumulator e e ms
  rwa [show e.withAccumulator e = e from rfl] at this

@[simp] theorem Engine.absorbBits_len (e : Engine) (ms : List Bool) : (e.absorbBits ms).len = e.len := by
  rw [e.absorbBits_frame ms]; rfl

@[simp] theorem Engine.absorbBits_ph (e : Engine) (ms : List Bool) : (e.absorbBits ms).ph = e.ph := by
  rw [e.absorbBits_frame ms]; rfl

@[simp] theorem Engine.absorbBits_busy (e : Engine) (ms : List Bool) : (e.absorbBits ms).busy = e.busy := by
  rw [e.absorbBits_frame ms]; rfl

@[simp] theorem Engine.absorbBits_cmdl (e : Engine) (ms : List Bool) : (e.absorbBits ms).cmdl = e.cmdl := by
  rw [e.absorbBits_frame ms]; rfl

@[simp] theorem Engine.absorbBits_dinl (e : Engine) (ms : List Bool) : (e.absorbBits ms).dinl = e.dinl := by
  rw [e.absorbBits_frame ms]; rfl

@[simp] theorem Engine.absorbBits_din (e : Engine) (ms : List Bool) : (e.absorbBits ms).din = e.din := by
  rw [e.absorbBits_frame ms]; rfl

@[simp] theorem Engine.absorbBits_digest (e : Engine) (ms : List Bool) : (e.absorbBits ms).digest = e.digest := by
  rw [e.absorbBits_frame ms]; rfl

@[simp] theorem Engine.absorbBits_dv (e : Engine) (ms : List Bool) : (e.absorbBits ms).dv = e.dv := by
  rw [e.absorbBits_frame ms]; rfl

@[simp] theorem Engine.absorbBits_errOp (e : Engine) (ms : List Bool) : (e.absorbBits ms).errOp = e.errOp := by
  rw [e.absorbBits_frame ms]; rfl

@[simp] theorem Engine.absorbBits_errCnt (e : Engine) (ms : List Bool) : (e.absorbBits ms).errCnt = e.errCnt := by
  rw [e.absorbBits_frame ms]; rfl

@[simp] theorem Engine.absorbBits_errSeq (e : Engine) (ms : List Bool) : (e.absorbBits ms).errSeq = e.errSeq := by
  rw [e.absorbBits_frame ms]; rfl

@[simp] theorem Engine.absorbBits_errOvr (e : Engine) (ms : List Bool) : (e.absorbBits ms).errOvr = e.errOvr := by
  rw [e.absorbBits_frame ms]; rfl

/-- ABSORB of a chunk that does not fill the block (R85): the bits stand at the cursor, H stays. -/
theorem Engine.absorbBits_of_lt (e : Engine) (ms : List Bool) (h : e.nb.toNat + ms.length < 512) :
    (e.absorbBits ms).h = e.h ∧ (e.absorbBits ms).nb.toNat = e.nb.toNat + ms.length ∧
    ∀ p, p < 512 → blockBit (e.absorbBits ms).w p =
      if e.nb.toNat ≤ p ∧ p < e.nb.toNat + ms.length then ms.getD (p - e.nb.toNat) false else blockBit e.w p := by
  induction ms generalizing e with
  | nil => exact ⟨rfl, rfl, fun p _ => by rw [if_neg (by simp only [List.length_nil]; omega)]; rfl⟩
  | cons m ms ih =>
    rw [List.length_cons] at h
    have hnb : (e.nb + 1).toNat = e.nb.toNat + 1 := by
      rw [BitVec.toNat_add, show (1 : BitVec 9).toNat = 1 from rfl]
      omega
    rw [absorbBits_cons, e.absorb_of_lt m (by omega)]
    obtain ⟨h1, h2, h3⟩ := ih { e with w := setBlockBit e.w e.nb.toNat m, nb := e.nb + 1 } (by simp only [hnb]; omega)
    refine ⟨h1, by rw [h2, List.length_cons]; simp only [hnb]; omega, fun p hp => ?_⟩
    rw [h3 p hp]
    simp only [hnb, List.length_cons]
    rw [blockBit_setBlockBit _ (by omega)]
    by_cases hc : p = e.nb.toNat
    · subst hc
      rw [if_neg (by omega), if_pos rfl, if_pos (by omega), Nat.sub_self, List.getD_cons_zero]
    · by_cases hr : e.nb.toNat + 1 ≤ p ∧ p < e.nb.toNat + 1 + ms.length
      · rw [if_pos hr, if_pos (by omega), show p - e.nb.toNat = (p - (e.nb.toNat + 1)) + 1 by omega, List.getD_cons_succ]
      · rw [if_neg hr, if_neg hc, if_neg (by omega)]

/-- ABSORB of a chunk that just fills the block (R86): the filled block is compressed, the cursor returns to 0. -/
theorem Engine.absorbBits_of_full (e : Engine) (ms : List Bool) (h : e.nb.toNat + ms.length = 512) :
    ∃ full : Block,
      (∀ p, p < 512 → blockBit full p =
        if p < e.nb.toNat then blockBit e.w p else ms.getD (p - e.nb.toNat) false) ∧
      (e.absorbBits ms).h = compress full e.h ∧ (e.absorbBits ms).w = zeroBlock ∧ (e.absorbBits ms).nb = 0 := by
  have hne : ms ≠ [] := by rintro rfl; have := e.nb.isLt; simp at h; omega
  obtain ⟨ns, m, rfl⟩ : ∃ ns m, ms = ns ++ [m] := ⟨ms.dropLast, ms.getLast hne, (List.dropLast_append_getLast hne).symm⟩
  rw [List.length_append, List.length_singleton] at h
  obtain ⟨h1, h2, h3⟩ := e.absorbBits_of_lt ns (by omega)
  rw [absorbBits_concat, Engine.absorb_of_full _ m (by omega)]
  refine ⟨setBlockBit (e.absorbBits ns).w (e.absorbBits ns).nb.toNat m, fun p hp => ?_, by rw [h1], rfl, rfl⟩
  rw [blockBit_setBlockBit _ (by omega), h2, h3 p hp]
  by_cases hc : p = e.nb.toNat + ns.length
  · rw [if_pos hc, if_neg (by omega), hc, Nat.add_sub_cancel_left]
    simp
  · rw [if_neg hc]
    by_cases hl : p < e.nb.toNat
    · rw [if_neg (by omega), if_pos hl]
    · rw [if_pos (by omega), if_neg hl, List.getD_append _ _ _ _ (by omega)]

/-! APPEND (R82). -/

theorem Engine.append_of_done (e : Engine) (n : Nat) (h : e.ph = .done) : e.append n = e.raise .seq := by
  simp only [Engine.append, h]

theorem Engine.append_of_accum (e : Engine) (n : Nat) (h : e.ph = .accum) :
    e.append n = { e with len := lenAdd e.len n }.absorbBits (chunk n e.dinl) := by
  simp only [Engine.append, h]

/-- APPEND in phase ACCUM writes H, W, NB and LEN and nothing else. -/
theorem Engine.append_frame (e : Engine) (n : Nat) (h : e.ph = .accum) :
    e.append n = { e with
      h := (e.absorbBits (chunk n e.dinl)).h, w := (e.absorbBits (chunk n e.dinl)).w,
      nb := (e.absorbBits (chunk n e.dinl)).nb, len := lenAdd e.len n } := by
  rw [e.append_of_accum n h]
  exact Engine.absorbBits_withAccumulator { e with len := lenAdd e.len n } e (chunk n e.dinl)

theorem toNat_lenAdd (len : Length) (n : Nat) : (lenAdd len n).toNat = (len.toNat + n) % 2 ^ 256 := by
  simp [lenAdd, BitVec.toNat_add]

/-! FINALIZE (R105). -/

theorem Engine.finalize_of_done (e : Engine) (h : e.ph = .done) : e.finalize = e.raise .seq := by
  simp only [Engine.finalize, h]

/-- The engine after F_FILL: the padded block, or the cleared block after the spill (R107, R108, R109). -/
def Engine.filled (e : Engine) : Engine :=
  if 32 < e.padCursor then (e.padBit.spill e.padCursor).fillToLength 0 else e.padBit.fillToLength e.padCursor

theorem Engine.finalize_of_accum (e : Engine) (h : e.ph = .accum) :
    e.finalize = e.filled.writeLength.compressLast.output := by
  simp only [Engine.finalize, h, Engine.filled, Config.lengthOffset]
  rfl

/-- The HashState that FINALIZE leaves: the final compression of the block that F_LEN has completed (R110, R111). -/
def Engine.finalHash (e : Engine) : Words := compress (withLength e.filled.w e.len) e.filled.h

/-- What FINALIZE computes depends on H, W, NB and LEN only. -/
theorem Engine.finalHash_congr {e e' : Engine} (h1 : e'.h = e.h) (h2 : e'.w = e.w) (h3 : e'.nb = e.nb)
    (h4 : e'.len = e.len) : e'.finalHash = e.finalHash := by
  have hp : e'.padCursor = e.padCursor := by unfold Engine.padCursor; rw [h3]
  unfold Engine.finalHash Engine.filled
  rw [hp, h4]
  by_cases hc : 32 < e.padCursor
  · rw [if_pos hc, if_pos hc]
    simp only [Engine.fillToLength, Engine.spill, Engine.padBit, h1, h2, h3]
  · rw [if_neg hc, if_neg hc]
    simp only [Engine.fillToLength, Engine.padBit, h1, h2, h3]

/-- FINALIZE in phase ACCUM writes H, W, NB, PH, DIGEST and DV and nothing else (R113). -/
theorem Engine.finalize_frame (e : Engine) (h : e.ph = .accum) :
    e.finalize = { e with
      h := e.finalHash, w := zeroBlock, nb := 0, ph := .done, digest := serWords e.finalHash, dv := true } := by
  rw [e.finalize_of_accum h]
  unfold Engine.finalHash Engine.filled
  split <;> rfl

end Sys2Proof.Machine
end

