-- ==== Sys2Proof/Laws/Message.lean ====
section
/-! SUPPORT. Messages as bit strings: the blocks they are cut into, what a fresh accumulator holds after absorbing one, its
padding, and the pieces in which a host appends it. -/

namespace Sys2Proof.Machine

/-! Blocks of a bit string (R92). -/

theorem blockBit_blockOfBits (l : List Bool) {p : Nat} (hp : p < 512) : blockBit (blockOfBits l) p = l.getD p false := by
  unfold blockBit
  rw [blockByte_eq _ (by omega)]
  unfold blockOfBits
  rw [Vector.getElem_ofFn, byteBit_leftJustify _ (by omega)]
  simp only [List.getD_eq_getElem?_getD, List.getElem?_drop]
  rw [show 8 * (p / 8) + p % 8 = p by omega]

theorem blockBit_messageBlock (l : List Bool) (t : Nat) {p : Nat} (hp : p < 512) :
    blockBit (messageBlock l t) p = l.getD (512 * t + p) false := by
  unfold messageBlock
  rw [blockBit_blockOfBits _ hp]
  simp only [List.getD_eq_getElem?_getD, Config.blockBits]
  rw [List.getElem?_take_of_lt hp, List.getElem?_drop]

theorem chainValue_append (l m : List Bool) (t : Nat) (h : 512 * t ≤ l.length) :
    chainValue (l ++ m) t = chainValue l t := by
  induction t with
  | zero => rfl
  | succ t ih =>
    rw [chainValue, chainValue, ih (by omega)]
    congr 1
    apply block_ext_bits
    intro p hp
    rw [blockBit_messageBlock _ _ hp, blockBit_messageBlock _ _ hp, List.getD_append _ _ _ _ (by omega)]

/-- What a fresh accumulator holds after absorbing a bit string (R92). -/
theorem absorb_message (e : Engine) (he : e.h = zeroWords) (hw : e.w = zeroBlock) (hn : e.nb = 0) (l : List Bool) :
    (e.absorbBits l).h = chainValue l (l.length / 512) ∧ (e.absorbBits l).nb.toNat = l.length % 512 ∧
    (e.absorbBits l).w = messageBlock l (l.length / 512) := by
  induction l using List.reverseRecOn with
  | nil =>
    refine ⟨he, by simp [hn], ?_⟩
    simp only [Engine.absorbBits_nil, hw]
    apply block_ext_bits; intro p hp; rw [blockBit_messageBlock _ _ hp]; simp
  | append_singleton l m ih =>
    obtain ⟨h1, h2, h3⟩ := ih
    rw [Engine.absorbBits_concat]
    set a := e.absorbBits l
    have hlen : (l ++ [m]).length = l.length + 1 := by simp
    rw [hlen]
    by_cases hf : l.length % 512 + 1 = 512
    · rw [a.absorb_of_full m (by omega)]
      have hd : (l.length + 1) / 512 = l.length / 512 + 1 := by omega
      refine ⟨?_, ?_, ?_⟩
      · rw [hd, chainValue, chainValue_append _ _ _ (by omega), ← h1]
        show compress _ _ = _
        congr 1
        apply block_ext_bits
        intro p hp
        rw [blockBit_messageBlock _ _ hp, blockBit_setBlockBit _ (by omega), h2, h3, blockBit_messageBlock _ _ hp]
        by_cases hc : p = l.length % 512
        · rw [if_pos hc, List.getD_append_right _ _ _ _ (by omega),
            show 512 * (l.length / 512) + p - l.length = 0 by omega]
          rfl
        · rw [if_neg hc, List.getD_append _ _ _ _ (by omega)]
      · show (0 : BitVec 9).toNat = _; simp; omega
      · show zeroBlock = _
        apply block_ext_bits
        intro p hp
        rw [blockBit_messageBlock _ _ hp, blockBit_zeroBlock, List.getD_eq_default _ _ (by simp; omega)]
    · rw [a.absorb_of_lt m (by omega)]
      have hd : (l.length + 1) / 512 = l.length / 512 := by omega
      refine ⟨?_, ?_, ?_⟩
      · rw [hd, chainValue_append _ _ _ (by omega)]; exact h1
      · show (a.nb + 1).toNat = _
        rw [BitVec.toNat_add, show (1 : BitVec 9).toNat = 1 from rfl]; omega
      · apply block_ext_bits
        intro p hp
        rw [hd, blockBit_messageBlock _ _ hp]
        show blockBit (setBlockBit _ _ _) _ = _
        rw [blockBit_setBlockBit _ (by omega), h2, h3, blockBit_messageBlock _ _ hp]
        by_cases hc : p = l.length % 512
        · rw [if_pos hc, List.getD_append_right _ _ _ _ (by omega),
            show 512 * (l.length / 512) + p - l.length = 0 by omega]
          rfl
        · rw [if_neg hc]
          by_cases hx : 512 * (l.length / 512) + p < l.length
          · rw [List.getD_append _ _ _ _ hx]
          · rw [List.getD_eq_default _ _ (by omega), List.getD_eq_default _ _ (by simp; omega)]

/-! Padding (R116). -/

theorem length_padMessage (m : List Bool) : (padMessage m).length =
    512 * (m.length / 512 + if m.length % 512 < 256 then 1 else 2) := by
  simp [padMessage, padZeros, lengthBits]
  split <;> omega

theorem getD_padMessage (m : List Bool) (k : Nat) : (padMessage m).getD k false =
    if k < m.length then m.getD k false
    else if k = m.length then true
    else if k < (padMessage m).length - 256 then false
    else (BitVec.ofNat 256 m.length).getMsbD (k - ((padMessage m).length - 256)) := by
  have hl : (padMessage m).length = m.length + 1 + padZeros m.length + 256 := by simp [padMessage, lengthBits]; omega
  rw [hl]
  simp only [padMessage, List.getD_eq_getElem?_getD]
  by_cases h1 : k < m.length
  · rw [if_pos h1, List.append_assoc, List.append_assoc, List.getElem?_append_left h1]
  · rw [if_neg h1]
    by_cases h2 : k = m.length
    · rw [if_pos h2, h2]; simp
    · rw [if_neg h2]
      by_cases h3 : k < m.length + 1 + padZeros m.length + 256 - 256
      · rw [if_pos h3, List.getElem?_append_left (by simp; omega), List.getElem?_append_right (by simp; omega)]
        simp [List.getElem?_replicate]; split <;> rfl
      · rw [if_neg h3, List.getElem?_append_right (by simp; omega)]
        simp only [List.length_append, List.length_replicate, List.length_singleton, lengthBits, List.getElem?_map]
        by_cases h4 : k - (m.length + 1 + padZeros m.length) < 256
        · rw [List.getElem?_range h4]; simp
        · rw [List.getElem?_eq_none (by simp; omega)]
          simp [BitVec.getMsbD]; intro hh; omega

/-- FINALIZE over an accumulator that holds a whole message leaves the last chaining value of the padded message (R116). -/
theorem finalHash_message (e : Engine) (m : List Bool) (h1 : e.h = chainValue m (m.length / 512))
    (h4 : e.nb.toNat = m.length % 512) (h5 : e.w = messageBlock m (m.length / 512))
    (hlen : e.len = BitVec.ofNat 256 m.length) : serWords e.finalHash = messageDigest m := by
  show serWords _ = serWords _
  congr 1
  set q := m.length / 512 with hq
  have hpad := length_padMessage m
  have hpre : chainValue (padMessage m) q = chainValue m q := by
    rw [padMessage, List.append_assoc, List.append_assoc]; exact chainValue_append _ _ _ (by omega)
  unfold Engine.finalHash
  by_cases hs : m.length % 512 < 256
  · have hcur : ¬ 32 < e.padCursor := by unfold Engine.padCursor; omega
    rw [if_pos hs] at hpad
    rw [hpad, show 512 * (q + 1) / Config.blockBits = q + 1 from by simp [Config.blockBits],
      chainValue, hpre, ← h1, Engine.filled, if_neg hcur]
    show compress _ e.h = _
    congr 1
    apply block_ext_bits
    intro p hp
    rw [blockBit_messageBlock _ _ hp, getD_padMessage, hpad, blockBit_withLength _ _ hp]
    simp only [Engine.fillToLength_w, Engine.padBit_w, h4]
    rw [blockBit_zeroBytes _ _ _ hp, blockBit_setBlockBit _ (by omega), h5, blockBit_messageBlock _ _ hp, hlen]
    unfold Engine.padCursor
    rw [h4]
    rw [show 512 * q + p - (512 * (m.length / 512 + 1) - 256) = p - 256 by omega]
    by_cases g1 : p < m.length % 512
    · split_ifs <;> first | (exfalso; omega) | with_reducible rfl
    · rw [List.getD_eq_default m false (show m.length ≤ 512 * q + p by omega)]
      split_ifs <;> first | (exfalso; omega) | with_reducible rfl
  · have hcur : 32 < e.padCursor := by unfold Engine.padCursor; omega
    rw [if_neg hs] at hpad
    rw [hpad, show 512 * (q + 2) / Config.blockBits = q + 1 + 1 from by simp [Config.blockBits],
      chainValue, chainValue, hpre, ← h1, Engine.filled, if_pos hcur]
    show compress _ (compress _ e.h) = _
    congr 1
    · apply block_ext_bits
      intro p hp
      rw [blockBit_messageBlock _ _ hp, getD_padMessage, hpad, blockBit_withLength _ _ hp, hlen]
      simp only [Engine.fillToLength_w, Engine.spill_w]
      rw [show 512 * (q + 1) + p - (512 * (m.length / 512 + 2) - 256) = p - 256 by omega]
      rw [blockBit_zeroBytes _ _ _ hp, blockBit_zeroBlock]
      split_ifs <;> first | (exfalso; omega) | with_reducible rfl
    · congr 1
      apply block_ext_bits
      intro p hp
      rw [blockBit_messageBlock _ _ hp, getD_padMessage, hpad]
      simp only [Engine.padBit_w, h4]
      rw [blockBit_zeroBytes _ _ _ hp, blockBit_setBlockBit _ (by omega), h5, blockBit_messageBlock _ _ hp]
      unfold Engine.padCursor
      rw [h4]
      by_cases g1 : p < m.length % 512
      · split_ifs <;> first | (exfalso; omega) | with_reducible rfl
      · rw [List.getD_eq_default m false (show m.length ≤ 512 * q + p by omega)]
        split_ifs <;> first | (exfalso; omega) | with_reducible rfl

/-! Pieces of a byte string (R63, R67). -/

theorem flatten_pieces {α : Type} {n : Nat} (hn : 0 < n) (l : List α) : (pieces n l).flatten = l := by
  have key : ∀ k, ((List.range k).map fun t => pieceAt n t l).flatten = l.take (n * k) := by
    intro k
    induction k with
    | zero => simp
    | succ k ih =>
      rw [List.range_succ, List.map_append, List.flatten_append, ih]
      simp [pieceAt, Nat.mul_succ, List.take_add]
  rw [pieces, key, List.take_of_length_le]
  have := Nat.div_add_mod (l.length + n - 1) n
  have := Nat.mod_lt (l.length + n - 1) hn
  omega

theorem length_of_mem_pieces {α : Type} {n : Nat} {l c : List α} (h : c ∈ pieces n l) : c.length ≤ n := by
  simp only [pieces, List.mem_map] at h
  obtain ⟨t, -, rfl⟩ := h
  simp [pieceAt]

theorem length_bitsOfBytes (bytes : List Byte) : (bitsOfBytes bytes).length = 8 * bytes.length := by
  induction bytes with
  | nil => rfl
  | cons b bs ih => simp [bitsOfBytes] at ih ⊢; omega

theorem bitsOfBytes_append (a b : List Byte) : bitsOfBytes (a ++ b) = bitsOfBytes a ++ bitsOfBytes b := by
  simp [bitsOfBytes]

theorem bitsOfBytes_flatten (cs : List (List Byte)) : bitsOfBytes cs.flatten = (cs.map bitsOfBytes).flatten := by
  induction cs with
  | nil => rfl
  | cons c cs ih => rw [List.flatten_cons, bitsOfBytes_append, ih]; rfl

theorem getD_bitsOfBytes (bytes : List Byte) (k : Nat) :
    (bitsOfBytes bytes).getD k false = byteBit (bytes.getD (k / 8) 0) (k % 8) := by
  induction bytes generalizing k with
  | nil => simp [bitsOfBytes, byteBit]
  | cons b bs ih =>
    have hb : bitsOfBytes (b :: bs) = (List.range 8).map (byteBit b) ++ bitsOfBytes bs := rfl
    rw [hb]
    by_cases hk : k < 8
    · rw [List.getD_append _ _ _ _ (by simpa using hk), show k / 8 = 0 by omega, show k % 8 = k by omega]
      simp [hk]
    · rw [List.getD_append_right _ _ _ _ (by simp; omega), ih]
      simp only [List.length_map, List.length_range]
      rw [show k / 8 = (k - 8) / 8 + 1 by omega, show (k - 8) % 8 = k % 8 by omega]
      simp

theorem getMsbD_be64 (b : Fin 8 → Byte) (j : Fin 8) {q : Nat} (hq : q < 8) :
    (be64 b).getMsbD (8 * j.val + q) = byteBit (b j) q := by
  unfold be64 byteBit
  rw [BitVec.getMsbD_append, BitVec.getMsbD_append, BitVec.getMsbD_append, BitVec.getMsbD_append,
    BitVec.getMsbD_append, BitVec.getMsbD_append, BitVec.getMsbD_append]
  fin_cases j <;> simp only <;> split_ifs <;> first | omega | (congr 1; omega)

/-- The bytes of a big-endian word are the bytes it was made of (R7). -/
theorem byteOf_be64 (b : Fin 8 → Byte) (k : Fin 8) : byteOf k.val (be64 b) = b k := by
  apply BitVec.eq_of_getMsbD_eq
  intro q hq
  have hk : 8 * k.val + q < 64 := by omega
  rw [show (b k).getMsbD q = byteBit (b k) q from rfl, ← getMsbD_be64 b k hq, byteOf, BitVec.getMsbD, BitVec.getMsbD,
    BitVec.getLsbD_extractLsb', show 56 - 8 * k.val + (8 - 1 - q) = 64 - 1 - (8 * k.val + q) by omega]
  simp only [hq, hk, decide_true, Bool.true_and]
  rw [decide_eq_true (by omega), Bool.true_and]

theorem dataBit_packBytes (bytes : List Byte) {k : Nat} (hk : k < 64) :
    dataBit (packBytes bytes) k = byteBit (bytes.getD (k / 8) 0) (k % 8) := by
  have h := getMsbD_be64 (fun k => bytes.getD k.val 0) ⟨k / 8, by omega⟩ (q := k % 8) (by omega)
  rwa [show 8 * (k / 8) + k % 8 = k by omega] at h

/-- The bits that an APPEND reads from bytes laid out left-justified are the bits of those bytes (R63). -/
theorem chunk_packBytes {bytes : List Byte} (h : bytes.length ≤ 8) :
    chunk (8 * bytes.length) (packBytes bytes) = bitsOfBytes bytes := by
  apply List.ext_getElem (by simp [length_bitsOfBytes])
  intro k h1 h2
  rw [length_chunk] at h1
  have e := getD_bitsOfBytes bytes k
  rw [List.getD_eq_getElem _ _ h2] at e
  rw [e, ← dataBit_packBytes bytes (by omega)]
  simp [chunk]

end Sys2Proof.Machine
end

