-- ==== Sys2Proof/Laws/Words.lean ====
section
/-! SUPPORT. The words a host sees, bit by bit: the fields of a command word (R56) and the bits of STATUS (R20, R125). -/

namespace Sys2Proof

theorem getLsbD_encodeFields (op : Byte) (c : BitVec 7) (i : Nat) :
    (encodeFields op c).getLsbD i = if i < 7 then c.getLsbD i else if i < 24 then false else op.getLsbD (i - 24) := by
  change BitVec.getLsbD (w := 8 + 17 + 7) (op ++ 0#17 ++ c) i = _
  rw [BitVec.getLsbD_append, BitVec.getLsbD_append]
  by_cases h1 : i < 7
  · simp only [h1, if_true]
  · by_cases h2 : i < 24
    · simp [h1, h2, show i - 7 < 17 by omega]
    · simp [h1, h2, show ¬ i - 7 < 17 by omega, show i - 7 - 17 = i - 24 by omega]

@[simp] theorem opField_encodeFields (op : Byte) (c : BitVec 7) : opField (encodeFields op c) = op := by
  apply BitVec.eq_of_getLsbD_eq
  intro i hi
  rw [opField, BitVec.getLsbD_extractLsb', getLsbD_encodeFields, if_neg (by omega), if_neg (by omega)]
  simp [hi]

@[simp] theorem rsvField_encodeFields (op : Byte) (c : BitVec 7) : rsvField (encodeFields op c) = 0 := by
  apply BitVec.eq_of_getLsbD_eq
  intro i hi
  rw [rsvField, BitVec.getLsbD_extractLsb', getLsbD_encodeFields, if_neg (by omega), if_pos (by omega)]
  simp

@[simp] theorem cntField_encodeFields (op : Byte) (c : BitVec 7) : cntField (encodeFields op c) = c := by
  apply BitVec.eq_of_getLsbD_eq
  intro i hi
  rw [cntField, BitVec.getLsbD_extractLsb', getLsbD_encodeFields, if_pos (by omega)]
  simp [hi]

/-- A word with RSV = 0 is made of its OP and CNT fields (R56). -/
theorem encodeFields_fields (w : Word32) (h : rsvField w = 0) : encodeFields (opField w) (cntField w) = w := by
  apply BitVec.eq_of_getLsbD_eq
  intro i hi
  rw [getLsbD_encodeFields]
  by_cases h1 : i < 7
  · rw [if_pos h1, cntField, BitVec.getLsbD_extractLsb']
    simp [h1]
  · rw [if_neg h1]
    by_cases h2 : i < 24
    · have hr := congrArg (fun v => v.getLsbD (i - 7)) h
      simp only [rsvField, BitVec.getLsbD_extractLsb', show i - 7 < 17 by omega, show 7 + (i - 7) = i by omega,
        decide_true, Bool.true_and] at hr
      rw [if_pos h2, hr]
      simp
    · rw [if_neg h2, opField, BitVec.getLsbD_extractLsb']
      simp [show i - 24 < 8 by omega, show 24 + (i - 24) = i by omega]

namespace Machine

/-- The bits of STATUS (R20, R125). -/
theorem Engine.status_bits (e : Engine) :
    e.status.getLsbD 0 = e.busy ∧ e.status.getLsbD 1 = decide (e.ph = .done) ∧ e.status.getLsbD 2 = e.dv ∧
    e.status.getLsbD 3 = false ∧ e.status.getLsbD 4 = e.errOp ∧ e.status.getLsbD 5 = e.errCnt ∧
    e.status.getLsbD 6 = e.errSeq ∧ e.status.getLsbD 7 = e.errOvr ∧ ∀ b, 8 ≤ b → e.status.getLsbD b = false := by
  unfold Engine.status
  refine ⟨?_, ?_, ?_, ?_, ?_, ?_, ?_, ?_, fun b hb => ?_⟩
  case refine_9 =>
    rw [BitVec.getLsbD_setWidth, BitVec.getLsbD_of_ge _ _ hb, Bool.and_false]
  all_goals simp only [BitVec.getLsbD_setWidth, BitVec.getLsbD_append, BitVec.getLsbD_ofBool]
  case refine_2 => cases e.ph <;> rfl
  all_goals simp

end Machine

end Sys2Proof
end

