-- ==== Sys2Proof/Laws/PerInstr.lean ====
section
/-! SUPPORT. Statements about every instruction as syntax, one lemma for each constructor of Instr. -/

namespace Sys2Proof.Laws

/-- The fields of an instruction's word (R56, R59, R64): its opcode, RSV = 0 and its count. -/
def EncodeFields.Statement (i : Instr) : Prop :=
  opField (encode i) = i.opcode ∧ rsvField (encode i) = 0 ∧ cntField (encode i) = i.cnt

theorem EncodeFields.nop : EncodeFields.Statement .nop :=
  ⟨opField_encodeFields _ _, rsvField_encodeFields _ _, cntField_encodeFields _ _⟩

theorem EncodeFields.init : EncodeFields.Statement .init :=
  ⟨opField_encodeFields _ _, rsvField_encodeFields _ _, cntField_encodeFields _ _⟩

theorem EncodeFields.append (n : Nat) : EncodeFields.Statement (.append n) :=
  ⟨opField_encodeFields _ _, rsvField_encodeFields _ _, cntField_encodeFields _ _⟩

theorem EncodeFields.final : EncodeFields.Statement .final :=
  ⟨opField_encodeFields _ _, rsvField_encodeFields _ _, cntField_encodeFields _ _⟩

end Sys2Proof.Laws
end

