-- ==== Sys2Proof/Laws/Step.lean ====
section
/-! SUPPORT. What one step can do, said once: who moves, what the move answers, and what it does to the engine. The rules
about every step are proved from `step_cases` and `step_engine_cases` without unfolding the step. -/

namespace Sys2Proof.Machine

/-! The commands as functions of the engine. -/

/-- What a command does to the engine. -/
def commandEffect (i : Instr) (e : Engine) : Engine :=
  match i with
  | .nop => e
  | .init => e.init
  | .append n => e.append n
  | .final => e.finalize

/-- Every command completes: `exec` answers the state with the command's effect on the engine. -/
theorem exec_eq (i : Instr) (s : State) : exec i s = .next (s.mapEngine (commandEffect i)) := by cases i <;> rfl

/-- Everything that a command can do: APPEND and FINALIZE are a sequence error in phase DONE (R139). -/
theorem commandEffect_cases (i : Instr) (e : Engine) :
    (i = .nop ∧ commandEffect i e = e) ∨ (i = .init ∧ commandEffect i e = e.init) ∨
    (∃ n, i = .append n ∧ e.ph = .done ∧ commandEffect i e = e.raise .seq) ∨
    (∃ n, i = .append n ∧ e.ph = .accum ∧ commandEffect i e = e.append n) ∨
    (i = .final ∧ e.ph = .done ∧ commandEffect i e = e.raise .seq) ∨
    (i = .final ∧ e.ph = .accum ∧ commandEffect i e = e.finalize) := by
  cases i with
  | nop => exact .inl ⟨rfl, rfl⟩
  | init => exact .inr (.inl ⟨rfl, rfl⟩)
  | append n =>
    cases h : e.ph with
    | done => exact .inr (.inr (.inl ⟨n, rfl, rfl, e.append_of_done n h⟩))
    | accum => exact .inr (.inr (.inr (.inl ⟨n, rfl, rfl, rfl⟩)))
  | final =>
    cases h : e.ph with
    | done => exact .inr (.inr (.inr (.inr (.inl ⟨rfl, rfl, e.finalize_of_done h⟩))))
    | accum => exact .inr (.inr (.inr (.inr (.inr ⟨rfl, rfl, rfl⟩))))

/-- The engine after its enabled step (R124): the command's effect or the rejection, and BUSY = 0. -/
def Engine.stepped (e : Engine) : Engine :=
  match decode e.cmdl with
  | .illegalOp => e.rejected .op
  | .illegalCnt => e.rejected .cnt
  | .command i => (commandEffect i e).complete

theorem Engine.stepped_of_illegalOp {e : Engine} (h : decode e.cmdl = .illegalOp) : e.stepped = e.rejected .op := by
  simp only [Engine.stepped, h]

theorem Engine.stepped_of_illegalCnt {e : Engine} (h : decode e.cmdl = .illegalCnt) : e.stepped = e.rejected .cnt := by
  simp only [Engine.stepped, h]

theorem Engine.stepped_of_command {e : Engine} {i : Instr} (h : decode e.cmdl = .command i) :
    e.stepped = (commandEffect i e).complete := by simp only [Engine.stepped, h]

theorem engineStep_eq (s : State) : engineStep s = .next (s.mapEngine Engine.stepped) := by
  cases h : decode s.engine.cmdl with
  | illegalOp => simp only [engineStep, State.mapEngine, h, Engine.stepped_of_illegalOp h]; rfl
  | illegalCnt => simp only [engineStep, State.mapEngine, h, Engine.stepped_of_illegalCnt h]; rfl
  | command i => simp only [engineStep, State.mapEngine, h, Engine.stepped_of_command h, exec_eq, thenNext]; rfl

/-- No command reads or writes DIN: it works on the copy latched at acceptance (R52). -/
theorem commandEffect_din (i : Instr) (e : Engine) (d : Word64) :
    commandEffect i { e with din := d } = { commandEffect i e with din := d } := by
  have hph : e.ph = .done ∨ e.ph = .accum := by cases e.ph <;> simp
  cases i with
  | nop => rfl
  | init => rfl
  | append n =>
    show ({ e with din := d } : Engine).append n = { e.append n with din := d }
    rcases hph with h | h
    · rw [e.append_of_done n h, Engine.append_of_done { e with din := d } n h]; rfl
    · rw [e.append_frame n h, Engine.append_frame { e with din := d } n h]
      have h3 : ({ e with din := d } : Engine).absorbBits (chunk n e.dinl) = _ :=
        Engine.absorbBits_withAccumulator { e with din := d } e (chunk n e.dinl)
      simp only [h3]
      rfl
  | final =>
    show ({ e with din := d } : Engine).finalize = { e.finalize with din := d }
    rcases hph with h | h
    · rw [e.finalize_of_done h, Engine.finalize_of_done { e with din := d } h]; rfl
    · rw [e.finalize_frame h, Engine.finalize_frame { e with din := d } h,
        show Engine.finalHash { e with din := d } = e.finalHash from Engine.finalHash_congr rfl rfl rfl rfl]

/-- The registers that no command writes: the latch, DIN, BUSY and the flags other than ERR_SEQ. -/
theorem commandEffect_frame (i : Instr) (e : Engine) :
    (commandEffect i e).busy = e.busy ∧ (commandEffect i e).cmdl = e.cmdl ∧ (commandEffect i e).dinl = e.dinl ∧
    (commandEffect i e).din = e.din ∧ ∀ c, c ≠ .seq → (commandEffect i e).flag c = e.flag c := by
  obtain ⟨-, hx⟩ | ⟨-, hx⟩ | ⟨n, -, hp, hx⟩ | ⟨n, -, hp, hx⟩ | ⟨-, hp, hx⟩ | ⟨-, hp, hx⟩ := commandEffect_cases i e <;>
    rw [hx]
  · exact ⟨rfl, rfl, rfl, rfl, fun c _ => rfl⟩
  · exact ⟨rfl, rfl, rfl, rfl, fun c _ => by cases c <;> rfl⟩
  · exact ⟨rfl, rfl, rfl, rfl, fun c hc => by cases c <;> first | rfl | exact absurd rfl hc⟩
  · rw [e.append_frame n hp]
    exact ⟨rfl, rfl, rfl, rfl, fun c _ => by cases c <;> rfl⟩
  · exact ⟨rfl, rfl, rfl, rfl, fun c hc => by cases c <;> first | rfl | exact absurd rfl hc⟩
  · rw [e.finalize_frame hp]
    exact ⟨rfl, rfl, rfl, rfl, fun c _ => by cases c <;> rfl⟩

/-- An engine step with another value in DIN gives the same state but for DIN (R52). -/
theorem Engine.stepped_din (e : Engine) (d : Word64) :
    Engine.stepped { e with din := d } = { e.stepped with din := d } := by
  unfold Engine.stepped
  cases decode e.cmdl with
  | illegalOp => rfl
  | illegalCnt => rfl
  | command i => simp only [commandEffect_din]; rfl

theorem Engine.stepped_frame (e : Engine) :
    e.stepped.busy = false ∧ e.stepped.cmdl = e.cmdl ∧ e.stepped.dinl = e.dinl ∧ e.stepped.din = e.din ∧
    e.stepped.errOvr = e.errOvr := by
  unfold Engine.stepped
  cases decode e.cmdl with
  | illegalOp => exact ⟨rfl, rfl, rfl, rfl, rfl⟩
  | illegalCnt => exact ⟨rfl, rfl, rfl, rfl, rfl⟩
  | command i =>
    obtain ⟨-, h1, h2, h3, h4⟩ := commandEffect_frame i e
    exact ⟨rfl, h1, h2, h3, h4 .ovr (by decide)⟩

/-! The decoder. -/

/-- The count of a decoded APPEND is legal (R59, R60). -/
theorem decode_eq_append {w : Word32} {n : Nat} (h : decode w = .command (.append n)) : n ≤ 64 := by
  unfold decode at h
  by_cases h1 : 0x03 < (opField w).toNat ∨ rsvField w ≠ 0
  · simp only [if_pos h1, reduceCtorEq] at h
  by_cases h2 : opField w ≠ 0x02 ∧ cntField w ≠ 0
  · simp only [if_neg h1, if_pos h2, reduceCtorEq] at h
  by_cases h3 : opField w = 0x02 ∧ Config.maxAppendBits < (cntField w).toNat
  · simp only [if_neg h1, if_neg h2, if_pos h3, reduceCtorEq] at h
  rw [if_neg h1, if_neg h2, if_neg h3] at h
  split at h
  · simp at h
  split at h
  · simp at h
  split at h
  · rename_i h4
    have hn : (cntField w).toNat = n := by simpa using h
    exact hn ▸ Nat.le_of_not_lt fun hlt => h3 ⟨h4, hlt⟩
  · simp at h

/-! One step. -/

theorem step_of_mover {s : State} {m : Turn} (h : s.mover = some m) : step s = runTurn m s.popTurn := by
  simp only [step, advance, h]

theorem step_of_no_mover {s : State} (h : s.mover = none) : step s = .next s := by simp only [step, advance, h]

/-- The enabled engine step (R124). -/
theorem step_of_engineMoves {s : State} (h : s.EngineMoves) : step s = .next (s.popTurn.mapEngine Engine.stepped) := by
  rw [step_of_mover h.1]
  simp only [runTurn, engineTurn, State.popTurn_engine, h.2, if_true, engineStep_eq]

/-- A host turn is the next access of its master. -/
theorem step_of_accesses {s : State} {k : Nat} {m : Master} {op : HostOp} {rest : List HostOp}
    (h : s.Accesses k m op rest) : step s = (match op with
      | .read addr width => hostRead s.popTurn k m rest addr width
      | .write addr width v => hostWrite s.popTurn k m rest addr width v
      | .wait => .next (hostPoll s.popTurn k m rest)) := by
  obtain ⟨h1, h2, h3⟩ := h
  rw [step_of_mover h1]
  simp only [runTurn, hostTurn, State.popTurn_masters, h2, h3]
  cases op <;> rfl

theorem step_of_read {s : State} {k : Nat} {m : Master} {rest : List HostOp} {addr width : Nat}
    (h : s.Accesses k m (.read addr width) rest) (hw : inWindow s.engineBase addr = true) :
    step s = .next (s.popTurn.setMaster k
      ⟨rest, m.reads ++ [(addr, s.engine.readAt (addr - s.engineBase) width)]⟩) := by
  rw [step_of_accesses h]
  simp only [hostRead, State.popTurn_engineBase, State.popTurn_engine, hw, if_true]

theorem step_of_write {s : State} {k : Nat} {m : Master} {rest : List HostOp} {addr width : Nat} {v : Word32}
    (h : s.Accesses k m (.write addr width v) rest) (hw : inWindow s.engineBase addr = true) :
    step s = .next ((s.popTurn.mapEngine fun e => e.writeAt (addr - s.engineBase) width v).setMaster k
      ⟨rest, m.reads⟩) := by
  rw [step_of_accesses h]
  simp only [hostWrite, State.popTurn_engineBase, hw, if_true]

theorem step_of_wait {s : State} {k : Nat} {m : Master} {rest : List HostOp} (h : s.Accesses k m .wait rest) :
    step s = .next (hostPoll s.popTurn k m rest) := step_of_accesses h

/-- An access outside the window stops the machine (log 6). -/
theorem step_outside_window {s : State} {k : Nat} {m : Master} {rest : List HostOp} {addr width : Nat}
    (hw : inWindow s.engineBase addr = false) :
    (s.Accesses k m (.read addr width) rest → step s = .fault .outsideWindow) ∧
    (∀ v, s.Accesses k m (.write addr width v) rest → step s = .fault .outsideWindow) := by
  refine ⟨fun h => ?_, fun v h => ?_⟩ <;> rw [step_of_accesses h] <;>
    simp [hostRead, hostWrite, State.popTurn_engineBase, hw]

theorem inWindow_iff (base addr : Nat) : inWindow base addr = true ↔ base ≤ addr ∧ addr < base + 0x100 := by
  unfold inWindow
  rw [Bool.and_eq_true, decide_eq_true_iff, decide_eq_true_iff]
  rfl

/-- Everything that one step which answers a next state can be. -/
theorem step_cases {s t : State} (h : step s = .next t) :
    (s.mover = none ∧ t = s) ∨
    (s.mover = some .reset ∧ t = resetTurn s.popTurn) ∨
    (s.mover = some .engine ∧ s.engine.busy = false ∧ t = s.popTurn) ∨
    (s.EngineMoves ∧ decode s.engine.cmdl = .illegalOp ∧ t = s.popTurn.reject .op) ∨
    (s.EngineMoves ∧ decode s.engine.cmdl = .illegalCnt ∧ t = s.popTurn.reject .cnt) ∨
    (∃ i, s.EngineMoves ∧ decode s.engine.cmdl = .command i ∧ t = (s.popTurn.mapEngine (commandEffect i)).complete) ∨
    (∃ k, s.mover = some (.host k) ∧ t = s.popTurn) ∨
    (∃ k m rest addr width, s.Accesses k m (.read addr width) rest ∧ inWindow s.engineBase addr = true ∧
      t = s.popTurn.setMaster k ⟨rest, m.reads ++ [(addr, s.engine.readAt (addr - s.engineBase) width)]⟩) ∨
    (∃ k m rest addr width v, s.Accesses k m (.write addr width v) rest ∧ inWindow s.engineBase addr = true ∧
      t = (s.popTurn.mapEngine fun e => e.writeAt (addr - s.engineBase) width v).setMaster k ⟨rest, m.reads⟩) ∨
    (∃ k m rest, s.Accesses k m .wait rest ∧ t = hostPoll s.popTurn k m rest) := by
  cases hm : s.mover with
  | none =>
    rw [step_of_no_mover hm] at h
    exact .inl ⟨rfl, (Host.Outcome.next.inj h).symm⟩
  | some mv =>
    cases mv with
    | reset =>
      rw [step_of_mover hm] at h
      exact .inr (.inl ⟨rfl, (Host.Outcome.next.inj h).symm⟩)
    | engine =>
      cases hb : s.engine.busy with
      | false =>
        rw [step_of_mover hm] at h
        simp only [runTurn, engineTurn, State.popTurn_engine, hb] at h
        exact .inr (.inr (.inl ⟨rfl, rfl, (Host.Outcome.next.inj h).symm⟩))
      | true =>
        have he : s.EngineMoves := ⟨hm, hb⟩
        rw [step_of_engineMoves he] at h
        have ht := (Host.Outcome.next.inj h).symm
        cases hd : decode s.engine.cmdl with
        | illegalOp => exact .inr (.inr (.inr (.inl ⟨he, rfl, by rw [ht, State.mapEngine, State.popTurn_engine, Engine.stepped_of_illegalOp hd]; rfl⟩)))
        | illegalCnt => exact .inr (.inr (.inr (.inr (.inl ⟨he, rfl, by rw [ht, State.mapEngine, State.popTurn_engine, Engine.stepped_of_illegalCnt hd]; rfl⟩))))
        | command i => exact .inr (.inr (.inr (.inr (.inr (.inl ⟨i, he, rfl, by rw [ht, State.mapEngine, State.popTurn_engine, Engine.stepped_of_command hd]; rfl⟩)))))
    | host k =>
      have stutter : ∀ {x : State}, x = s.popTurn → t = x → ∃ k', some (Turn.host k) = some (.host k') ∧ t = s.popTurn :=
        fun hx ht => ⟨k, rfl, ht.trans hx⟩
      cases hk : s.masters[k]? with
      | none =>
        rw [step_of_mover hm] at h
        simp only [runTurn, hostTurn, State.popTurn_masters, hk] at h
        exact .inr (.inr (.inr (.inr (.inr (.inr (.inl (stutter rfl (Host.Outcome.next.inj h).symm)))))))
      | some m =>
        cases hp : m.program with
        | nil =>
          rw [step_of_mover hm] at h
          simp only [runTurn, hostTurn, State.popTurn_masters, hk, hp] at h
          exact .inr (.inr (.inr (.inr (.inr (.inr (.inl (stutter rfl (Host.Outcome.next.inj h).symm)))))))
        | cons op rest =>
          have ha : s.Accesses k m op rest := ⟨hm, hk, hp⟩
          cases op with
          | read addr width =>
            cases hw : inWindow s.engineBase addr with
            | true =>
              rw [step_of_read ha hw] at h
              exact .inr (.inr (.inr (.inr (.inr (.inr (.inr (.inl
                ⟨k, m, rest, addr, width, ha, hw, (Host.Outcome.next.inj h).symm⟩)))))))
            | false => rw [(step_outside_window hw).1 ha] at h; exact nomatch h
          | write addr width v =>
            cases hw : inWindow s.engineBase addr with
            | true =>
              rw [step_of_write ha hw] at h
              exact .inr (.inr (.inr (.inr (.inr (.inr (.inr (.inr (.inl
                ⟨k, m, rest, addr, width, v, ha, hw, (Host.Outcome.next.inj h).symm⟩))))))))
            | false => rw [(step_outside_window hw).2 v ha] at h; exact nomatch h
          | wait =>
            rw [step_of_wait ha] at h
            exact .inr (.inr (.inr (.inr (.inr (.inr (.inr (.inr (.inr
              ⟨k, m, rest, ha, (Host.Outcome.next.inj h).symm⟩))))))))

/-- Every step takes the planned turn off the list and keeps the window base. -/
theorem step_turns {s t : State} (h : step s = .next t) : t.turns = s.turns.tail ∧ t.engineBase = s.engineBase := by
  obtain ⟨hm, rfl⟩ | ⟨hm, rfl⟩ | ⟨-, -, rfl⟩ | ⟨he, hd, rfl⟩ | ⟨he, hd, rfl⟩ | ⟨i, he, hd, rfl⟩ | ⟨k, -, rfl⟩ |
    ⟨k, m, rest, addr, width, ha, hw, rfl⟩ | ⟨k, m, rest, addr, width, v, ha, hw, rfl⟩ | ⟨k, m, rest, ha, rfl⟩ :=
    step_cases h
  case inl =>
    refine ⟨?_, rfl⟩
    cases ht : t.turns with
    | nil => rfl
    | cons x xs => simp [State.mover, ht] at hm
  all_goals exact ⟨rfl, rfl⟩

/-! Register writes. -/

/-- The write of a register at an offset of the window, case by case (R35, R36, R41, R120 to R123, R129). -/
theorem Engine.writeAt_cases (e : Engine) (off width : Nat) (v : Word32) :
    e.writeAt off width v = e ∨
    (width = 4 ∧ off = 0x000 ∧ e.writeAt off width v = e.writeCmd v) ∨
    (width = 4 ∧ off = 0x004 ∧ e.writeAt off width v = e.clearFlags v) ∨
    (width = 4 ∧ off = 0x008 ∧ e.writeAt off width v = { e with din := v ++ dinLo e.din }) ∨
    (width = 4 ∧ off = 0x00C ∧ e.writeAt off width v = { e with din := dinHi e.din ++ v }) := by
  by_cases h : width = Config.accessBytes ∧ off % 4 = 0
  · have hw : e.writeAt off width v = e.writeReg (regAt off) v := if_pos h
    rw [hw]
    by_cases h0 : off = 0x000
    · exact .inr (.inl ⟨h.1, h0, by rw [h0]; rfl⟩)
    by_cases h4 : off = 0x004
    · exact .inr (.inr (.inl ⟨h.1, h4, by rw [h4]; rfl⟩))
    by_cases h8 : off = 0x008
    · exact .inr (.inr (.inr (.inl ⟨h.1, h8, by rw [h8]; rfl⟩)))
    by_cases hc : off = 0x00C
    · exact .inr (.inr (.inr (.inr ⟨h.1, hc, by rw [hc]; rfl⟩)))
    · left
      unfold regAt
      rw [if_neg h0, if_neg h4, if_neg h8, if_neg hc]
      split <;> rfl
  · exact .inl (if_neg h)

/-- What one step does to the engine. -/
theorem step_engine_cases {s t : State} (h : step s = .next t) :
    t.engine = s.engine ∨
    (s.mover = some .reset ∧ t.engine = Engine.reset) ∨
    (s.EngineMoves ∧ decode s.engine.cmdl = .illegalOp ∧ t.engine = s.engine.rejected .op) ∨
    (s.EngineMoves ∧ decode s.engine.cmdl = .illegalCnt ∧ t.engine = s.engine.rejected .cnt) ∨
    (∃ i, s.EngineMoves ∧ decode s.engine.cmdl = .command i ∧ t.engine = (commandEffect i s.engine).complete) ∨
    (∃ w, s.WritesReg 0x000 w ∧ t.engine = s.engine.writeCmd w) ∨
    (∃ v, s.WritesReg 0x004 v ∧ t.engine = s.engine.clearFlags v) ∨
    (∃ d, t.engine = { s.engine with din := d }) := by
  obtain ⟨-, rfl⟩ | ⟨hm, rfl⟩ | ⟨-, -, rfl⟩ | ⟨he, hd, rfl⟩ | ⟨he, hd, rfl⟩ | ⟨i, he, hd, rfl⟩ | ⟨k, -, rfl⟩ |
    ⟨k, m, rest, addr, width, ha, hw, rfl⟩ | ⟨k, m, rest, addr, width, v, ha, hw, rfl⟩ | ⟨k, m, rest, ha, rfl⟩ :=
    step_cases h
  · exact .inl rfl
  · exact .inr (.inl ⟨hm, rfl⟩)
  · exact .inl rfl
  · exact .inr (.inr (.inl ⟨he, hd, rfl⟩))
  · exact .inr (.inr (.inr (.inl ⟨he, hd, rfl⟩)))
  · exact .inr (.inr (.inr (.inr (.inl ⟨i, he, hd, rfl⟩))))
  · exact .inl rfl
  · exact .inl rfl
  · have hb := (inWindow_iff _ _).1 hw
    have hreg : ∀ off, addr - s.engineBase = off → width = 4 → s.WritesReg off v := by
      intro off ho hwid
      refine ⟨k, m, rest, ?_⟩
      rw [show s.engineBase + off = addr by omega, show Config.accessBytes = width from hwid.symm]
      exact ha
    simp only [State.setMaster_engine, State.mapEngine_engine, State.popTurn_engine]
    obtain h0 | ⟨h4, ho, h1⟩ | ⟨h4, ho, h1⟩ | ⟨-, -, h1⟩ | ⟨-, -, h1⟩ :=
      s.engine.writeAt_cases (addr - s.engineBase) width v
    · exact .inl h0
    · exact .inr (.inr (.inr (.inr (.inr (.inl ⟨v, hreg _ ho h4, h1⟩)))))
    · exact .inr (.inr (.inr (.inr (.inr (.inr (.inl ⟨v, hreg _ ho h4, h1⟩))))))
    · exact .inr (.inr (.inr (.inr (.inr (.inr (.inr ⟨_, h1⟩))))))
    · exact .inr (.inr (.inr (.inr (.inr (.inr (.inr ⟨_, h1⟩))))))
  · exact .inl rfl

end Sys2Proof.Machine
end

