-- ==== Sys2Proof/Laws/Run.lean ====
section
/-! SUPPORT. Runs of several steps: how they compose, that a step keeps all accesses in the window, and what one master
alone on the bus does with each kind of access in any planned order without a reset. -/

namespace Sys2Proof.Machine

/-! Composition. -/

theorem coreRun_succ (M : Host.Core) {s t : M.State} (k : Nat) (h : M.step s = .next t) : M.run (k + 1) s = M.run k t := by
  rw [Host.Core.run.eq_def]
  simp only [h]

theorem coreRun_succ_inv (M : Host.Core) {s t : M.State} {k : Nat} (h : M.run (k + 1) s = .next t) :
    ∃ u, M.step s = .next u ∧ M.run k u = .next t := by
  rw [Host.Core.run.eq_def] at h
  cases hs : M.step s with
  | next u => exact ⟨u, rfl, by simpa only [hs] using h⟩
  | fault r => simp only [hs] at h; exact nomatch h
  | refused r => simp only [hs] at h; exact nomatch h

theorem coreRun_add (M : Host.Core) {s t : M.State} {j : Nat} (k : Nat) (h : M.run j s = .next t) :
    M.run (j + k) s = M.run k t := by
  induction j generalizing s with
  | zero =>
    rw [Host.Core.run.eq_def] at h
    rw [Nat.zero_add, Host.Outcome.next.inj h]
  | succ j ih =>
    obtain ⟨u, hs, h⟩ := coreRun_succ_inv M h
    rw [Nat.succ_add, coreRun_succ M _ hs, ih h]

theorem run_succ {s t : State} {k : Nat} (h : step s = .next t) :
    Host.Core.run core (k + 1) s = Host.Core.run core k t := coreRun_succ core k h

/-- Some number of steps leads from `s` to `t`. -/
def Reaches (s t : State) : Prop := ∃ k, Host.Core.run core k s = .next t

theorem Reaches.refl (s : State) : Reaches s s := ⟨0, rfl⟩

theorem Reaches.of_step {s t : State} (h : step s = .next t) : Reaches s t := ⟨1, run_succ h⟩

theorem Reaches.trans {s t u : State} (h : Reaches s t) (h' : Reaches t u) : Reaches s u := by
  obtain ⟨j, hj⟩ := h
  obtain ⟨k, hk⟩ := h'
  exact ⟨j + k, (coreRun_add core k hj).trans hk⟩

/-! Who is ready, and the window. -/

/-- The master that moves when no turn is planned has an access to make. -/
theorem firstReady_spec {ms : List Master} {k : Nat} (h : firstReady ms = some k) :
    ∃ m op rest, ms[k]? = some m ∧ m.program = op :: rest := by
  induction ms generalizing k with
  | nil => simp [firstReady] at h
  | cons m ms ih =>
    unfold firstReady at h
    cases hp : m.program with
    | nil =>
      simp [hp] at h
      obtain ⟨a, ha, rfl⟩ := h
      simpa using ih ha
    | cons op rest =>
      simp [hp] at h
      subst h
      exact ⟨m, op, rest, rfl, hp⟩

theorem firstReady_none {ms : List Master} (h : firstReady ms = none) : ∀ m ∈ ms, m.program = [] := by
  induction ms with
  | nil => simp
  | cons m ms ih =>
    unfold firstReady at h
    cases hp : m.program with
    | nil =>
      simp [hp] at h
      intro x hx
      rcases List.mem_cons.1 hx with rfl | hx
      · exact hp
      · exact ih h x hx
    | cons op rest => simp [hp] at h

/-- A master that keeps only accesses it already had leaves all accesses in the window. -/
theorem State.InWindow.setMaster {s : State} (h : s.InWindow) {k : Nat} {m m' : Master} (hk : s.masters[k]? = some m)
    (hs : ∀ op ∈ m'.program, op ∈ m.program) : (s.setMaster k m').InWindow := by
  intro x hx op ho
  simp only [State.setMaster_masters] at hx
  rcases List.mem_or_eq_of_mem_set hx with hx | rfl
  · exact h x hx op ho
  · exact h m (List.mem_of_getElem? hk) op (hs op ho)

theorem State.InWindow.access {s : State} (h : s.InWindow) {k : Nat} {m : Master} {op : HostOp} {rest : List HostOp}
    (ha : s.Accesses k m op rest) : op.inWindow s.engineBase = true :=
  h m (List.mem_of_getElem? ha.2.1) op (by rw [ha.2.2]; exact List.mem_cons_self ..)

/-! The end of one program (R166). -/

theorem resultOf_eq_some {s : State} {k : Nat} {r : ProgramResult} :
    s.resultOf k = some r ↔ s.masters[k]? = some ⟨[], r.reads⟩ ∧ s.engine.busy = false ∧ r.engine = s.engine := by
  unfold State.resultOf
  cases hm : s.masters[k]? with
  | none => simp
  | some m =>
    obtain ⟨p, rd⟩ := m
    obtain ⟨rd', e'⟩ := r
    cases p <;> cases hb : s.engine.busy <;> simp [eq_comm]

/-- A step keeps the number of masters. -/
theorem step_masters_length {s t : State} (h : step s = .next t) : t.masters.length = s.masters.length := by
  obtain ⟨hm, rfl⟩ | ⟨hm, rfl⟩ | ⟨-, -, rfl⟩ | ⟨he, hd, rfl⟩ | ⟨he, hd, rfl⟩ | ⟨i, he, hd, rfl⟩ | ⟨k, -, rfl⟩ |
    ⟨k, m, rest, addr, width, ha, hw, rfl⟩ | ⟨k, m, rest, addr, width, v, ha, hw, rfl⟩ | ⟨k, m, rest, ha, rfl⟩ :=
    step_cases h <;> first | rfl | exact List.length_set

theorem step_no_reset {s t : State} (h : step s = .next t) (hr : .reset ∉ s.turns) : .reset ∉ t.turns := by
  rw [(step_turns h).1]
  exact fun hx => hr (List.mem_of_mem_tail hx)

/-- With one master whose program has ended and no reset planned, a step changes only the list of turns. -/
theorem step_ended {s t : State} {r : ProgramResult} (h1 : s.masters.length = 1) (hr : .reset ∉ s.turns)
    (hs : s.resultOf 0 = some r) (h : step s = .next t) : t.resultOf 0 = some r := by
  obtain ⟨hm, hb, he⟩ := resultOf_eq_some.1 hs
  have no : ∀ {k m op rest}, ¬ s.Accesses k m op rest := by
    rintro k m op rest ⟨-, h2, h3⟩
    have hk : k = 0 := by
      have := (List.getElem?_eq_some_iff.1 h2).1
      omega
    rw [hk, hm] at h2
    rw [← Option.some.inj h2] at h3
    exact nomatch h3
  have same : t.engine = s.engine → t.masters = s.masters → t.resultOf 0 = some r := fun h2 h3 =>
    resultOf_eq_some.2 ⟨by rw [h3]; exact hm, by rw [h2]; exact hb, by rw [h2]; exact he⟩
  obtain ⟨-, rfl⟩ | ⟨hx, rfl⟩ | ⟨-, -, rfl⟩ | ⟨he', -, rfl⟩ | ⟨he', -, rfl⟩ | ⟨i, he', -, rfl⟩ | ⟨k, -, rfl⟩ |
    ⟨k, m, rest, addr, width, ha, hw, rfl⟩ | ⟨k, m, rest, addr, width, v, ha, hw, rfl⟩ | ⟨k, m, rest, ha, rfl⟩ :=
    step_cases h
  · exact hs
  · exfalso
    unfold State.mover at hx
    cases ht : s.turns with
    | nil =>
      rw [ht] at hx
      cases hf : firstReady s.masters <;> simp [hb, hf] at hx
    | cons x xs =>
      rw [ht] at hx
      exact hr (by rw [ht, Option.some.inj hx]; exact List.mem_cons_self ..)
  · exact same rfl rfl
  · rw [he'.2] at hb; exact nomatch hb
  · rw [he'.2] at hb; exact nomatch hb
  · rw [he'.2] at hb; exact nomatch hb
  · exact same rfl rfl
  · exact absurd ha no
  · exact absurd ha no
  · exact absurd ha no

/-- The result of a program that ends somewhere on a run of one master without a reset. -/
theorem runResult_of_reaches {s t : State} {r : ProgramResult} (h1 : s.masters.length = 1) (hr : .reset ∉ s.turns)
    (h : Reaches s t) (ht : t.resultOf 0 = some r) : ∃ n, runResult 0 n s = some r := by
  obtain ⟨n, h⟩ := h
  induction n generalizing s with
  | zero =>
    have hst : s = t := Host.Outcome.next.inj h
    exact ⟨0, by rw [runResult, hst]; exact ht⟩
  | succ n ih =>
    obtain ⟨u, hs, h⟩ := coreRun_succ_inv core h
    have hs' : step s = .next u := hs
    obtain ⟨j, hj⟩ := ih ((step_masters_length hs').trans h1) (step_no_reset hs' hr) h
    cases h0 : s.resultOf 0 with
    | none => exact ⟨j + 1, by simp only [runResult, h0, hs', hj]⟩
    | some r0 =>
      have hu := step_ended h1 hr h0 hs'
      have h2 : runResult 0 j u = some r0 := by cases j <;> simp only [runResult, hu]
      exact ⟨0, by rw [runResult, h0, ← h2, hj]⟩

/-- A program that has ended somewhere on a run has a result, that of the first such moment (R166). -/
theorem exists_runResult {s t : State} {k : Nat} {r : ProgramResult} (h : Reaches s t) (ht : t.resultOf k = some r) :
    ∃ n r', runResult k n s = some r' := by
  obtain ⟨n, h⟩ := h
  induction n generalizing s with
  | zero =>
    have hst : s = t := Host.Outcome.next.inj h
    exact ⟨0, r, by rw [runResult, hst]; exact ht⟩
  | succ n ih =>
    obtain ⟨u, hs, h⟩ := coreRun_succ_inv core h
    have hs' : step s = .next u := hs
    obtain ⟨j, r', hj⟩ := ih h
    cases h0 : s.resultOf k with
    | none => exact ⟨j + 1, r', by simp only [runResult, h0, hs', hj]⟩
    | some r0 => exact ⟨0, r0, by rw [runResult, h0]⟩

/-! One master alone, with any planned turns but a reset. -/

/-- The state with an engine, one master that has a program and has read some values, and planned turns. -/
def State.alone (s : State) (e : Engine) (p : List HostOp) (r : List (Nat × Word32)) (ts : List Turn) : State :=
  { s with engine := e, masters := [⟨p, r⟩], turns := ts }

/-- The engine once no command is pending. -/
def Engine.settled (e : Engine) : Engine := if e.busy then e.stepped else e

theorem Engine.settled_of_idle {e : Engine} (h : e.busy = false) : e.settled = e := by
  rw [Engine.settled, h]
  rfl

theorem Engine.settled_of_busy {e : Engine} (h : e.busy = true) : e.settled = e.stepped := if_pos h

@[simp] theorem Engine.settled_busy (e : Engine) : e.settled.busy = false := by
  cases h : e.busy with
  | false => rw [Engine.settled_of_idle h, h]
  | true => rw [Engine.settled_of_busy h, e.stepped_frame.1]

@[simp] theorem Engine.settled_stepped (e : Engine) : e.stepped.settled = e.stepped :=
  Engine.settled_of_idle e.stepped_frame.1

@[simp] theorem Engine.settled_settled (e : Engine) : e.settled.settled = e.settled :=
  Engine.settled_of_idle e.settled_busy

/-- A pending command does not see a write of DIN (R52). -/
theorem Engine.settled_din (e : Engine) (d : Word64) :
    Engine.settled { e with din := d } = { e.settled with din := d } := by
  have hb : ({ e with din := d } : Engine).busy = e.busy := rfl
  unfold Engine.settled
  rw [hb]
  split
  · exact e.stepped_din d
  · rfl

/-- What an engine has become by the time of the next access: its pending command has completed, or not yet. -/
def Engine.MaySettle (e e' : Engine) : Prop := e' = e ∨ e' = e.settled

theorem Engine.MaySettle.settled_eq {e e' : Engine} (h : e.MaySettle e') : e'.settled = e.settled := by
  rcases h with rfl | rfl
  · rfl
  · exact e.settled_settled

theorem Engine.MaySettle.of_idle {e e' : Engine} (hb : e.busy = false) (h : e.MaySettle e') : e' = e := by
  rcases h with rfl | rfl
  · rfl
  · exact Engine.settled_of_idle hb

/-- A planned turn of the engine settles it. -/
theorem reaches_engineTurn (s : State) (p : List HostOp) (r : List (Nat × Word32)) (e : Engine) (ts : List Turn) :
    Reaches (s.alone e p r (.engine :: ts)) (s.alone e.settled p r ts) := by
  cases hb : e.busy with
  | false =>
    rw [Engine.settled_of_idle hb]
    refine Reaches.of_step ((step_of_mover (m := .engine) rfl).trans ?_)
    simp only [runTurn, engineTurn, State.alone, State.popTurn, hb]
    rfl
  | true =>
    rw [Engine.settled_of_busy hb]
    exact Reaches.of_step (step_of_engineMoves ⟨rfl, hb⟩)

/-- The turns before the next access of the only master take its engine at most one command further: whatever is planned,
the access comes with the engine as it was or settled. -/
theorem reaches_access (s : State) (op : HostOp) (p : List HostOp) (r : List (Nat × Word32)) (e : Engine)
    (ts : List Turn) (hr : .reset ∉ ts) :
    ∃ e' ts', e.MaySettle e' ∧ .reset ∉ ts' ∧ ts'.length ≤ ts.length ∧
      Reaches (s.alone e (op :: p) r ts) (s.alone e' (op :: p) r ts') ∧
      (s.alone e' (op :: p) r ts').Accesses 0 ⟨op :: p, r⟩ op p := by
  induction ts generalizing e with
  | nil =>
    cases hb : e.busy with
    | false =>
      exact ⟨e, [], .inl rfl, hr, le_rfl, Reaches.refl _, by simp [State.alone, State.mover, hb, firstReady], rfl, rfl⟩
    | true =>
      have hm : (s.alone e (op :: p) r []).EngineMoves := ⟨by simp [State.alone, State.mover, hb], hb⟩
      refine ⟨e.settled, [], .inr rfl, hr, le_rfl, ?_, ?_, rfl, rfl⟩
      · rw [Engine.settled_of_busy hb]
        exact Reaches.of_step (step_of_engineMoves hm)
      · simp [State.alone, State.mover, firstReady]
  | cons x xs ih =>
    have hr' : Turn.reset ∉ xs := fun h => hr (List.mem_cons_of_mem _ h)
    cases x with
    | reset => exact absurd (List.mem_cons_self ..) hr
    | engine =>
      obtain ⟨e', ts', h1, h2, hl, h3, h4⟩ := ih e.settled hr'
      exact ⟨e', ts', .inr (h1.of_idle e.settled_busy), h2, Nat.le_succ_of_le hl, (reaches_engineTurn s (op :: p) r e xs).trans h3, h4⟩
    | host k =>
      cases k with
      | zero => exact ⟨e, _, .inl rfl, hr, le_rfl, Reaches.refl _, rfl, rfl, rfl⟩
      | succ k =>
        obtain ⟨e', ts', h1, h2, hl, h3, h4⟩ := ih e hr'
        refine ⟨e', ts', h1, h2, Nat.le_succ_of_le hl, (Reaches.of_step ?_).trans h3, h4⟩
        rw [step_of_mover (m := .host (k + 1)) rfl]
        simp [runTurn, hostTurn, State.alone, State.popTurn]

theorem no_reset_tail {ts : List Turn} (h : .reset ∉ ts) : .reset ∉ ts.tail := fun hx => h (List.mem_of_mem_tail hx)

/-- A write by the only master, whatever turns are planned. -/
theorem reaches_write (s : State) (off width : Nat) (ho : off < 0x100) (v : Word32) (p : List HostOp)
    (r : List (Nat × Word32)) (e : Engine) (ts : List Turn) (hr : .reset ∉ ts) :
    ∃ e' ts', e.MaySettle e' ∧ .reset ∉ ts' ∧
      Reaches (s.alone e (.write (s.engineBase + off) width v :: p) r ts)
        (s.alone (e'.writeAt off width v) p r ts') := by
  obtain ⟨e', ts', h1, h2, -, h3, h4⟩ := reaches_access s (.write (s.engineBase + off) width v) p r e ts hr
  refine ⟨e', ts'.tail, h1, no_reset_tail h2, h3.trans (Reaches.of_step ?_)⟩
  rw [step_of_write h4 ((inWindow_iff _ _).2 (by simp [State.alone]; omega))]
  simp [State.alone, State.setMaster, State.mapEngine, State.popTurn]

/-- A read by the only master, whatever turns are planned. -/
theorem reaches_read (s : State) (off width : Nat) (ho : off < 0x100) (p : List HostOp) (r : List (Nat × Word32))
    (e : Engine) (ts : List Turn) (hr : .reset ∉ ts) :
    ∃ e' ts', e.MaySettle e' ∧ .reset ∉ ts' ∧
      Reaches (s.alone e (.read (s.engineBase + off) width :: p) r ts)
        (s.alone e' p (r ++ [(s.engineBase + off, e'.readAt off width)]) ts') := by
  obtain ⟨e', ts', h1, h2, -, h3, h4⟩ := reaches_access s (.read (s.engineBase + off) width) p r e ts hr
  refine ⟨e', ts'.tail, h1, no_reset_tail h2, h3.trans (Reaches.of_step ?_)⟩
  rw [step_of_read h4 ((inWindow_iff _ _).2 (by simp [State.alone]; omega))]
  simp [State.alone, State.setMaster, State.popTurn]

/-- One poll of `wait` by the only master (R66). -/
theorem step_alone_wait (s : State) (p : List HostOp) (r : List (Nat × Word32)) (e : Engine) (ts : List Turn)
    (h : (s.alone e (.wait :: p) r ts).Accesses 0 ⟨.wait :: p, r⟩ .wait p) :
    step (s.alone e (.wait :: p) r ts) = .next (s.alone e (if e.busy then .wait :: p else p)
      (r ++ [(s.engineBase + 0x004, e.status)]) ts.tail) := by
  rw [step_of_wait h]
  simp only [hostPoll, State.alone, State.popTurn, State.setMaster, e.status_bits.1]
  rfl

/-- `wait` ends, whatever turns are planned, with the engine settled (R66, R165). -/
theorem reaches_wait (s : State) (p : List HostOp) (r : List (Nat × Word32)) (e : Engine) (ts : List Turn)
    (hr : .reset ∉ ts) :
    ∃ r' ts', .reset ∉ ts' ∧ Reaches (s.alone e (.wait :: p) r ts) (s.alone e.settled p (r ++ r') ts') := by
  obtain ⟨n, hn⟩ : ∃ n, ts.length ≤ n := ⟨_, le_rfl⟩
  induction n generalizing e r ts with
  | zero =>
    obtain rfl := List.eq_nil_of_length_eq_zero (Nat.le_zero.1 hn)
    obtain ⟨e', ts', h1, h2, hl, h3, h4⟩ := reaches_access s .wait p r e [] hr
    obtain rfl := List.eq_nil_of_length_eq_zero (Nat.le_zero.1 hl)
    have hw := step_alone_wait s p r e' [] h4
    have hb : e'.busy = false := by
      cases hb : e'.busy with
      | false => rfl
      | true => simpa [State.alone, State.mover, hb] using h4.1
    rw [hb] at hw
    rw [← (Engine.settled_of_idle hb).symm.trans h1.settled_eq]
    exact ⟨_, [], h2, h3.trans (Reaches.of_step hw)⟩
  | succ n ih =>
    obtain ⟨e', ts', h1, h2, hl, h3, h4⟩ := reaches_access s .wait p r e ts hr
    have hw := step_alone_wait s p r e' ts' h4
    cases hb : e'.busy with
    | false =>
      rw [hb] at hw
      rw [← (Engine.settled_of_idle hb).symm.trans h1.settled_eq]
      exact ⟨_, _, no_reset_tail h2, h3.trans (Reaches.of_step hw)⟩
    | true =>
      rw [hb, if_pos rfl] at hw
      have hlt : ts'.tail.length ≤ n := by
        rw [List.length_tail]
        omega
      obtain ⟨r', ts'', h5, h6⟩ := ih (r ++ [(s.engineBase + 0x004, e'.status)]) e' ts'.tail (no_reset_tail h2) hlt
      rw [h1.settled_eq, List.append_assoc] at h6
      exact ⟨_, ts'', h5, h3.trans ((Reaches.of_step hw).trans h6)⟩

/-- A program with no access left ends with the engine settled, whatever turns are planned (R165, R166). -/
theorem reaches_ended (s : State) (r : List (Nat × Word32)) (e : Engine) (ts : List Turn) (hr : .reset ∉ ts) :
    ∃ ts', Reaches (s.alone e [] r ts) (s.alone e.settled [] r ts') := by
  induction ts generalizing e with
  | nil =>
    cases hb : e.busy with
    | false => exact ⟨[], by rw [Engine.settled_of_idle hb]; exact Reaches.refl _⟩
    | true =>
      refine ⟨[], ?_⟩
      rw [Engine.settled_of_busy hb]
      exact Reaches.of_step (step_of_engineMoves ⟨by simp [State.alone, State.mover, hb], hb⟩)
  | cons x xs ih =>
    have hr' : Turn.reset ∉ xs := fun h => hr (List.mem_cons_of_mem _ h)
    cases x with
    | reset => exact absurd (List.mem_cons_self ..) hr
    | engine =>
      obtain ⟨ts', h⟩ := ih e.settled hr'
      rw [e.settled_settled] at h
      exact ⟨ts', (reaches_engineTurn s [] r e xs).trans h⟩
    | host k =>
      obtain ⟨ts', h⟩ := ih e hr'
      refine ⟨ts', (Reaches.of_step ?_).trans h⟩
      rw [step_of_mover (m := .host k) rfl]
      cases k <;> simp [runTurn, hostTurn, State.alone, State.popTurn]

/-! The accesses of an assembler program. -/

theorem writeCmd_idle {e : Engine} (hb : e.busy = false) (w : Word32) : e.writeAt 0x000 4 w = e.latch w := by
  rw [show e.writeAt 0x000 4 w = e.writeCmd w from rfl, Engine.writeCmd, hb]; rfl

theorem concat_dinHi (d : Word64) : dinHi d ++ dinLo d = d := by
  apply BitVec.eq_of_getLsbD_eq
  intro i hi
  unfold dinHi dinLo
  rw [BitVec.getLsbD_append, BitVec.getLsbD_extractLsb', BitVec.getLsbD_extractLsb']
  by_cases h : i < 32
  · simp [h]
  · simp [h, show i - 32 < 32 by omega, show 32 + (i - 32) = i by omega]

theorem dinHi_concat (a b : Word32) : dinHi (a ++ b) = a := by
  apply BitVec.eq_of_getLsbD_eq
  intro i hi
  unfold dinHi
  rw [BitVec.getLsbD_extractLsb', BitVec.getLsbD_append]
  simp [hi]

/-- `wdin v` writes DIN; what the pending command does is not changed by it (R66, R52). -/
theorem reaches_wdin (s : State) (v : Word64) (p : List HostOp) (r : List (Nat × Word32)) (e : Engine)
    (ts : List Turn) (hr : .reset ∉ ts) :
    ∃ e' ts', e'.settled = { e.settled with din := v } ∧ .reset ∉ ts' ∧
      Reaches (s.alone e (wdin s.engineBase v ++ p) r ts) (s.alone e' p r ts') := by
  obtain ⟨e1, t1, h1, n1, g1⟩ := reaches_write s 0x008 4 (by omega) (dinHi v)
    (.write (s.engineBase + 0x00C) 4 (dinLo v) :: p) r e ts hr
  obtain ⟨e2, t2, h2, n2, g2⟩ := reaches_write s 0x00C 4 (by omega) (dinLo v) p r
    ({ e1 with din := dinHi v ++ dinLo e1.din } : Engine) t1 n1
  refine ⟨e2.writeAt 0x00C 4 (dinLo v), t2, ?_, n2, g1.trans g2⟩
  have hd : dinHi e2.din = dinHi v := by
    have h3 : e2.din = dinHi v ++ dinLo e1.din := by
      rcases h2 with rfl | rfl
      · rfl
      · rw [Engine.settled_din]
    rw [h3, dinHi_concat]
  rw [show e2.writeAt 0x00C 4 (dinLo v) = { e2 with din := dinHi e2.din ++ dinLo v } from rfl, hd, concat_dinHi,
    Engine.settled_din, h2.settled_eq, Engine.settled_din, h1.settled_eq]

/-- A command written to an idle engine is accepted, and completes when the engine settles (R123, R124). -/
theorem reaches_command (s : State) (i : Instr) (hd : decode (encode i) = .command i) (p : List HostOp)
    (r : List (Nat × Word32)) {e : Engine} (hb : e.busy = false) (ts : List Turn) (hr : .reset ∉ ts) :
    ∃ e' ts', e'.settled = (commandEffect i (e.latch (encode i))).complete ∧ .reset ∉ ts' ∧
      Reaches (s.alone e (asmCommand s.engineBase i ++ p) r ts) (s.alone e' p r ts') := by
  obtain ⟨e1, t1, h1, n1, g1⟩ := reaches_write s 0x000 4 (by omega) (encode i) p r e ts hr
  rw [h1.of_idle hb, writeCmd_idle hb] at g1
  refine ⟨e.latch (encode i), t1, ?_, n1, g1⟩
  rw [Engine.settled_of_busy rfl, Engine.stepped_of_command (e := e.latch (encode i)) (i := i) hd]

/-- The first `n` reads of `rdig` from an idle engine give the first `n` DIGEST registers (R66, R127). -/
theorem reaches_digestReads (s : State) {e : Engine} (hb : e.busy = false) (n : Nat) (hn : n ≤ 16) (p : List HostOp)
    (r : List (Nat × Word32)) (ts : List Turn) (hr : .reset ∉ ts) :
    ∃ ts', .reset ∉ ts' ∧
      Reaches (s.alone e (((List.range n).map fun k => .read (s.engineBase + 0x040 + 4 * k) 4) ++ p) r ts)
        (s.alone e p (r ++ (List.range n).map fun k => (s.engineBase + 0x040 + 4 * k, digestReg e.digest k)) ts') := by
  induction n generalizing p with
  | zero => exact ⟨ts, hr, by simpa using Reaches.refl _⟩
  | succ n ih =>
    rw [List.range_succ, List.map_append, List.append_assoc, List.map_append, ← List.append_assoc r]
    obtain ⟨t1, n1, g1⟩ := ih (by omega)
      ((List.map (fun k => HostOp.read (s.engineBase + 0x040 + 4 * k) 4) [n]) ++ p)
    obtain ⟨e2, t2, h2, n2, g2⟩ := reaches_read s (0x040 + 4 * n) 4 (by omega) p
      (r ++ (List.range n).map fun k => (s.engineBase + 0x040 + 4 * k, digestReg e.digest k)) e t1 n1
    have hr : e.readAt (0x040 + 4 * n) 4 = digestReg e.digest n := by
      unfold Engine.readAt regAt
      rw [if_pos ⟨rfl, by omega⟩, if_neg (by omega), if_neg (by omega), if_neg (by omega), if_neg (by omega),
        if_pos (by omega), show (0x040 + 4 * n - 0x040) / 4 = n by omega]
      rfl
    rw [h2.of_idle hb, ← Nat.add_assoc, hr] at g2
    exact ⟨t2, n2, g1.trans (by simpa using g2)⟩

end Sys2Proof.Machine
end

