-- ==== Sys2Proof/Laws/Programs.lean ====
section
/-! SUPPORT. The assembler programs of the only master, in any planned order without a reset: what a run of APPENDs leaves,
and what the one-shot program around such a body reads. -/

namespace Sys2Proof.Machine

/-- The accesses that append groups, each a data word and a bit count (R67, R68). -/
def appendAccesses (base : Nat) (gs : List (Word64 × Nat)) : List HostOp :=
  gs.flatMap fun g => wdin base g.1 ++ .wait :: asmCommand base (.append g.2)

/-- The message bits of such groups (R62). -/
def groupBits (gs : List (Word64 × Nat)) : List Bool := gs.flatMap fun g => chunk g.2 g.1

/-- What an APPEND of a data word just written leaves, in phase ACCUM (R91). -/
theorem append_written (e : Engine) (hp : e.ph = .accum) (v : Word64) (n : Nat) :
    (commandEffect (.append n) (Engine.latch { e with din := v } (encode (.append n)))).complete =
      { (Engine.latch { e with din := v } (encode (.append n))) with
        h := (e.absorbBits (chunk n v)).h, w := (e.absorbBits (chunk n v)).w, nb := (e.absorbBits (chunk n v)).nb,
        len := lenAdd e.len n, busy := false } := by
  obtain ⟨x, hx⟩ : ∃ x, x = Engine.latch { e with din := v } (encode (.append n)) := ⟨_, rfl⟩
  have ha : x.absorbBits (chunk n x.dinl) = x.withAccumulator (e.absorbBits (chunk n v)) := by
    rw [show x.dinl = v by rw [hx]; rfl, ← Engine.absorbBits_withAccumulator, hx]
    rfl
  have hl : x.len = e.len := by rw [hx]; rfl
  rw [← hx]
  show (x.append n).complete = _
  rw [Engine.append_frame x n (by rw [hx]; exact hp), hl, ha]
  rfl

/-- Appending groups absorbs their bits, in phase ACCUM, once the engine has settled. -/
theorem reaches_appends (s : State) (gs : List (Word64 × Nat))
    (hd : ∀ g ∈ gs, decode (encode (.append g.2)) = .command (.append g.2)) (p : List HostOp) (r : List (Nat × Word32))
    (e : Engine) (ts : List Turn) (hr : .reset ∉ ts) (hp : e.settled.ph = .accum) :
    ∃ e' r' ts', .reset ∉ ts' ∧
      Reaches (s.alone e (appendAccesses s.engineBase gs ++ p) r ts) (s.alone e' p (r ++ r') ts') ∧
      e'.settled.ph = .accum ∧ e'.settled.len = lenAdd e.settled.len (groupBits gs).length ∧
      e'.settled.h = (e.settled.absorbBits (groupBits gs)).h ∧ e'.settled.w = (e.settled.absorbBits (groupBits gs)).w ∧
      e'.settled.nb = (e.settled.absorbBits (groupBits gs)).nb := by
  induction gs generalizing e r ts with
  | nil => exact ⟨e, [], ts, hr, by simpa [appendAccesses] using Reaches.refl _, hp, by simp [lenAdd, groupBits], rfl, rfl, rfl⟩
  | cons g gs ih =>
    obtain ⟨v, n⟩ := g
    have hdn : decode (encode (.append n)) = .command (.append n) := hd (v, n) (List.mem_cons_self ..)
    obtain ⟨e1, t1, h1, n1, g1⟩ := reaches_wdin s v
      (.wait :: asmCommand s.engineBase (.append n) ++ (appendAccesses s.engineBase gs ++ p)) r e ts hr
    obtain ⟨r2, t2, n2, g2⟩ := reaches_wait s
      (asmCommand s.engineBase (.append n) ++ (appendAccesses s.engineBase gs ++ p)) r e1 t1 n1
    rw [h1] at g2
    obtain ⟨e3, t3, h3, n3, g3⟩ := reaches_command s (.append n) hdn (appendAccesses s.engineBase gs ++ p) (r ++ r2)
      (e := { e.settled with din := v }) e.settled_busy t2 n2
    replace h3 := h3.trans (append_written e.settled hp v n)
    obtain ⟨e', r', t', n', g', k1, k2, k3, k4, k5⟩ := ih (fun x hx => hd x (List.mem_cons_of_mem _ hx)) (r ++ r2) e3 t3
      n3 (by rw [h3]; exact hp)
    have hbits : groupBits ((v, n) :: gs) = chunk n v ++ groupBits gs := rfl
    have e4 : e3.settled.absorbBits (groupBits gs) =
        e3.settled.withAccumulator (e.settled.absorbBits (chunk n v ++ groupBits gs)) := by
      have h4 : e3.settled = e3.settled.withAccumulator (e.settled.absorbBits (chunk n v)) := by rw [h3]; rfl
      rw [h4, Engine.absorbBits_withAccumulator, Engine.absorbBits_append]
      rfl
    refine ⟨e', r2 ++ r', t', n', ?_, k1, ?_, by rw [k3, e4]; rfl, by rw [k4, e4]; rfl, by rw [k5, e4]; rfl⟩
    · have hshape : appendAccesses s.engineBase ((v, n) :: gs) ++ p = wdin s.engineBase v ++
          (.wait :: asmCommand s.engineBase (.append n) ++ (appendAccesses s.engineBase gs ++ p)) := by
        simp [appendAccesses]
      rw [hshape, ← List.append_assoc r]
      exact g1.trans (g2.trans (g3.trans g'))
    · rw [k2, h3, hbits]
      simp [lenAdd, BitVec.ofNat_add, BitVec.add_assoc]

/-- The one-shot program around APPENDs of groups, from any engine: it ends, its last 16 reads are the digest of the groups'
bits, and the final engine state holds that digest (R69, R116, R166). -/
theorem runResult_oneShot (s : State) (gs : List (Word64 × Nat))
    (hd : ∀ g ∈ gs, decode (encode (.append g.2)) = .command (.append g.2)) (hr : .reset ∉ s.turns)
    (hm : s.masters = [⟨oneShot s.engineBase (appendAccesses s.engineBase gs), []⟩]) :
    ∃ n r pre, runResult 0 n s = some r ∧ r.reads = pre ++ digestReads s.engineBase (messageDigest (groupBits gs)) ∧
      r.engine.digest = messageDigest (groupBits gs) ∧ r.engine.dv = true ∧ r.engine.ph = .done ∧
      r.engine.len.toNat = (groupBits gs).length % 2 ^ 256 := by
  have hs : s.alone s.engine (oneShot s.engineBase (appendAccesses s.engineBase gs)) [] s.turns = s := by
    rw [State.alone, ← hm]
  have hshape : oneShot s.engineBase (appendAccesses s.engineBase gs) = .wait :: (asmCommand s.engineBase .init ++
      (appendAccesses s.engineBase gs ++ (.wait :: (asmCommand s.engineBase .final ++ (.wait :: rdig s.engineBase))))) := by
    simp [oneShot]
  rw [hshape] at hs
  obtain ⟨r1, t1, n1, g1⟩ := reaches_wait s (asmCommand s.engineBase .init ++ (appendAccesses s.engineBase gs ++
    (.wait :: (asmCommand s.engineBase .final ++ (.wait :: rdig s.engineBase))))) [] s.engine s.turns hr
  obtain ⟨e2, t2, h2, n2, g2⟩ := reaches_command s .init (by decide) (appendAccesses s.engineBase gs ++
    (.wait :: (asmCommand s.engineBase .final ++ (.wait :: rdig s.engineBase)))) ([] ++ r1) s.engine.settled_busy t1 n1
  obtain ⟨e3, r3, t3, n3, g3, k1, k2, k3, k4, k5⟩ := reaches_appends s gs hd
    (.wait :: (asmCommand s.engineBase .final ++ (.wait :: rdig s.engineBase))) ([] ++ r1) e2 t2 n2 (by rw [h2]; rfl)
  obtain ⟨a1, a2, a3⟩ := absorb_message e2.settled (by rw [h2]; rfl) (by rw [h2]; rfl) (by rw [h2]; rfl) (groupBits gs)
  have a4 : e3.settled.len = BitVec.ofNat 256 (groupBits gs).length := by
    rw [k2, h2]
    exact BitVec.zero_add _
  obtain ⟨r4, t4, n4, g4⟩ := reaches_wait s (asmCommand s.engineBase .final ++ (.wait :: rdig s.engineBase))
    ([] ++ r1 ++ r3) e3 t3 n3
  obtain ⟨e5, t5, h5, n5, g5⟩ := reaches_command s .final (by decide) (.wait :: rdig s.engineBase) ([] ++ r1 ++ r3 ++ r4)
    e3.settled_busy t4 n4
  have hf : e5.settled = (Engine.finalize (e3.settled.latch (encode .final))).complete := h5
  rw [Engine.finalize_frame (e3.settled.latch (encode .final)) k1] at hf
  have hw : serWords (e3.settled.latch (encode .final)).finalHash = messageDigest (groupBits gs) :=
    finalHash_message _ _ (k3.trans a1) (by rw [← a2, ← k5]; rfl) (k4.trans a3) a4
  obtain ⟨r6, t6, n6, g6⟩ := reaches_wait s (rdig s.engineBase) ([] ++ r1 ++ r3 ++ r4) e5 t5 n5
  obtain ⟨t7, n7, g7⟩ := reaches_digestReads s e5.settled_busy 16 le_rfl [] ([] ++ r1 ++ r3 ++ r4 ++ r6) t6 n6
  rw [List.append_nil] at g7
  have hdig : e5.settled.digest = messageDigest (groupBits gs) := by rw [hf]; exact hw
  have hall := g1.trans (g2.trans (g3.trans (g4.trans (g5.trans (g6.trans g7)))))
  rw [hs] at hall
  obtain ⟨n, hn⟩ := runResult_of_reaches (by rw [hm]; rfl) hr hall
    (resultOf_eq_some (r := ⟨[] ++ r1 ++ r3 ++ r4 ++ r6 ++ (List.range 16).map fun k =>
      (s.engineBase + 0x040 + 4 * k, digestReg e5.settled.digest k), e5.settled⟩) |>.2 ⟨rfl, e5.settled_busy, rfl⟩)
  refine ⟨n, _, [] ++ r1 ++ r3 ++ r4 ++ r6, hn, ?_, hdig, by rw [hf]; rfl, by rw [hf]; rfl, ?_⟩
  · show _ ++ _ = _ ++ _
    rw [hdig]
    rfl
  · show e5.settled.len.toNat = _
    rw [hf]
    show e3.settled.len.toNat = _
    rw [a4, BitVec.toNat_ofNat]

end Sys2Proof.Machine
end

