-- ==== Sys2Proof/Tests/Slice0.lean ====
section
/-! SUPPORT. Small tests with expected values from the spec (95_test_vectors.md, or the encoding of 30_encoding.md written
out bit by bit), and for every statement with hypotheses a witness that meets them. -/

namespace Sys2Proof.Tests

open Sys2Proof.Machine

/-! Helpers. -/

/-- The state that a step answered has a property. -/
def nextAnd (o : Host.Outcome State Fault Refusal) (p : State → Bool) : Bool :=
  match o with
  | .next s => p s
  | .fault _ => false
  | .refused _ => false

/-- The reset engine in phase DONE, as after V-X4 but for the digest. -/
def doneEngine : Engine := { Engine.reset with ph := .done, dv := true }

/-- A state with an engine, a window base, no turn planned and no master. -/
def stateOf (e : Engine) : State := { State.reset with engine := e, engineBase := 0x4000 }

/-- A state whose next step is the engine step of a word. -/
def pending (e : Engine) (w : Word32) : State := stateOf { e with cmdl := w, busy := true }

/-- A state whose next step is one access of the only master; the window stands at 0x4000. -/
def accessing (e : Engine) (op : HostOp) : State :=
  { stateOf e with masters := [⟨[op], []⟩], turns := [.host 0] }

/-- A block with one byte set. -/
def blockWith (k : Nat) (b : Byte) : Block := setBlockByte zeroBlock k b

/-! WellFormed. -/

theorem test_append_65_is_ill_formed : (Instr.append 65).wellFormed = false := by decide
theorem test_append_64_is_well_formed : (Instr.append 64).wellFormed = true := by decide
theorem test_address_below_window_is_outside : HostOp.inWindow 0x4000 (.read 0x3FFF 4) = false := by decide
theorem test_address_above_window_is_outside : HostOp.inWindow 0x4000 (.write 0x4100 4 0) = false := by decide
theorem test_last_register_is_inside : HostOp.inWindow 0x4000 (.read 0x40FC 4) = true := by decide
theorem test_narrow_access_is_irregular : HostOp.regular 0x4000 (.read 0x4004 1) = false := by decide
theorem test_unaligned_access_is_irregular : HostOp.regular 0x4000 (.write 0x4002 4 0) = false := by decide

/-! Decoding, words written out as OP RSV CNT (R56, R57, R59). -/

theorem test_decode_nop : decode 0b00000000_00000000000000000_0000000 = .command .nop := by decide
theorem test_decode_init : decode 0b00000001_00000000000000000_0000000 = .command .init := by decide
theorem test_decode_append_24 : decode 0b00000010_00000000000000000_0011000 = .command (.append 24) := by decide
theorem test_decode_append_64 : decode 0b00000010_00000000000000000_1000000 = .command (.append 64) := by decide
theorem test_decode_final : decode 0b00000011_00000000000000000_0000000 = .command .final := by decide

/-- The rejected words of V-X14. -/
theorem test_decode_rejections :
    [0x00000001, 0x01000040, 0x02000080, 0x02800040, 0x03000001, 0x04000000, 0xFF000000].all
      (fun w : Word32 => decode w = .illegalOp) = true ∧
    [0x02000041, 0x0200007F].all (fun w : Word32 => decode w = .illegalCnt) = true := by decide

theorem test_encode_append_24 : encode (.append 24) = 0x02000018 := by decide

/-! The commands, one step each, in the state that `withFetchWord` gives. -/

/-- V-X3: NOP leaves NB. -/
theorem test_nop_step :
    nextAnd (step ((stateOf { Engine.reset with nb := 3, len := 3 }).withFetchWord 32 0x00000000)) (fun s =>
      s.engine.nb = 3 && s.engine.len = 3 && s.engine.status = 0x00) = true := by decide

/-- V-X9: INIT after FINALIZE clears DONE and keeps DV. -/
theorem test_init_step :
    nextAnd (step ((stateOf doneEngine).withFetchWord 32 0x01000000)) (fun s =>
      s.engine.status = 0x04 && s.engine.ph = .accum && s.engine.len = 0) = true := by decide

/-- V-A2: APPEND 8 behind three bits. -/
theorem test_append_across_byte :
    nextAnd (step ((stateOf { Engine.reset with w := blockWith 0 0xE0, nb := 3, len := 3, din := 0xFF00000000000000 }
      ).withFetchWord 32 0x02000008)) (fun s =>
      s.engine.nb = 11 && s.engine.len = 0xb && blockByte s.engine.w 0 = 0xFF && blockByte s.engine.w 1 = 0xE0) = true := by
  decide +kernel

/-- V-A9: the length counter wraps. -/
theorem test_append_length_wraps :
    nextAnd (step ((stateOf { Engine.reset with len := BitVec.allOnes 256, din := 0x8000000000000000 }
      ).withFetchWord 32 0x02000001)) (fun s =>
      s.engine.nb = 1 && s.engine.len = 0 && blockByte s.engine.w 0 = 0x80) = true := by decide +kernel

/-- V-X4 and V-F0: FINALIZE of the empty message. -/
theorem test_final_of_empty_message :
    nextAnd (step ((stateOf Engine.reset).withFetchWord 32 0x03000000)) (fun s =>
      s.engine.status = 0x06 && digestReg s.engine.digest 0 = 0x19FA61D7 && digestReg s.engine.digest 15 = 0x42A66EB3) =
      true := by decide +kernel

/-- V-F12 (NB = 504, here without the bytes of earlier blocks): the two-block branch, whose H after the spill compression
the vector gives. -/
theorem test_final_spills_full_block :
    (FinRegs.run 2 (FinRegs.start 99 { Engine.reset with nb := 504, len := 504 })).engine.h =
      #v[0x944ec5700809e21e, 0x138a9f873831abd8, 0xc0b30815766175f6, 0xb34c6a2433e31a5d,
        0x6c1cc5e5f1d292fb, 0x6f74261fe070b775, 0x9d9c71c4749574b0, 0xcdd00a6349d65f01] := by decide +kernel

/-! Tables and the round function. -/

/-- V-T1. -/
theorem test_sbox : sbox 0x00 = 0x18 ∧ sbox 0x01 = 0x23 ∧ sbox 0x80 = 0x97 ∧ sbox 0xFF = 0x86 := by decide +kernel

/-- V-T3, some entries. -/
theorem test_diffusion_tables : cTable 0 0x01 = 0x23238c2305af4626 ∧ cTable 3 0x01 = 0xaf462623238c2305 ∧
    cTable 7 0x01 = 0x238c2305af462623 ∧ cTable 1 0xFF = 0xc28686228644a411 := by decide +kernel

/-- V-T4, the first and the last. -/
theorem test_round_constants : rc 1 = 0x1823c6e887b8014f ∧ rc 10 = 0xca2dbf07ad5a8333 := by decide +kernel

/-- V-R2. -/
theorem test_rho : rho #v[0x0001020304050607, 0x08090a0b0c0d0e0f, 0x1011121314151617, 0x18191a1b1c1d1e1f,
    0x2021222324252627, 0x28292a2b2c2d2e2f, 0x3031323334353637, 0x38393a3b3c3d3e3f] =
    #v[0x7c2ef93bea918f11, 0x6a254336f12b75eb, 0x47d7f6f2b59105af, 0xfaa8d123e491cdd0,
      0x2b700ba07fbab3b8, 0xd1327cdfc129d2b5, 0x3373e9cc580544dd, 0x3f548eb77cca791b] := by decide +kernel

/-- V-C3, the block of "abc". -/
theorem test_compress_abc :
    compress (setBlockByte (setBlockByte (setBlockByte (setBlockByte (blockWith 63 0x18) 0 0x61) 1 0x62) 2 0x63) 3 0x80)
      zeroWords =
    #v[0x4e2448a4c6f486bb, 0x16b6562c73b4020b, 0xf3043e3a731bce72, 0x1ae1b303d97e6d4c,
      0x7181eebdb6c57e27, 0x7d0e34957114cbd6, 0xc797fc9d95d8b582, 0xd225292076d4eef5] := by decide +kernel

/-! Host accesses. -/

/-- V-X1 and V-X2: reads of STATUS, CMD, a reserved offset and DIN. -/
theorem test_register_reads :
    let e := { Engine.reset with din := 0x0123456789ABCDEF }
    e.readAt 0x004 4 = 0 ∧ e.readAt 0x000 4 = 0 ∧ e.readAt 0x010 4 = 0 ∧
    e.readAt 0x008 4 = 0x01234567 ∧ e.readAt 0x00C 4 = 0x89ABCDEF := by decide

/-- V-X11 and V-X12: STATUS = 0xF6 after two writes of STATUS. -/
theorem test_status_write :
    let e := { doneEngine with errOp := true, errCnt := true, errSeq := true, errOvr := true }
    e.status = 0xF6 ∧ (e.writeAt 0x004 4 0x00000030).status = 0xC6 ∧ (e.writeAt 0x004 4 0x0000000F).status = 0xF6 := by
  decide

/-- V-X10: a second command before the engine step is dropped. -/
theorem test_overrun :
    (((Engine.reset).writeAt 0x000 4 0x01000000).writeAt 0x000 4 0x00000000).status = 0x81 := by decide

/-- V-X8: in phase DONE a count of 100 is ERR_CNT only. -/
theorem test_count_error_outranks_sequence_error :
    nextAnd (step (pending doneEngine 0x02000064)) (fun s => s.engine.status = 0x26) = true := by decide

/-- 0x020000FF meets the conditions of ERR_OP and of ERR_CNT: only ERR_OP is reported (R141). -/
theorem test_opcode_error_outranks_count_error :
    nextAnd (step (pending doneEngine 0x020000FF)) (fun s => s.engine.status = 0x16) = true := by decide

/-- V-X6: an APPEND of 0 bits in phase DONE is ERR_SEQ. -/
theorem test_sequence_error :
    nextAnd (step (pending doneEngine 0x02000000)) (fun s => s.engine.status = 0x46) = true := by decide

/-- V-X16: a reset abandons a pending FINALIZE. -/
theorem test_reset_abandons_command :
    nextAnd (step { pending doneEngine 0x03000000 with turns := [.reset] }) (fun s =>
      s.engine.status = 0x00 && s.engine.digest = zeroBlock) = true := by decide

/-- R66 and R71: the accesses of `wdin`. -/
theorem test_wdin : wdin 0x4000 0x6162630000000000 =
    [.write 0x4008 4 0x61626300, .write 0x400C 4 0x00000000] := by decide

/-- R65: the assembler refuses a count above 64. -/
theorem test_assembler : assemble 0 (.append 65) = none ∧ assemble 0 (.append 64) = some [.write 0 4 0x02000040] := by
  decide

/-- The bus accesses 1 to 9 of program P1. -/
theorem test_sum_program : (sumProgram 0 [0x61, 0x62, 0x63]).take 9 =
    [.wait, .write 0x000 4 0x01000000, .write 0x008 4 0x61626300, .write 0x00C 4 0x00000000, .wait,
     .write 0x000 4 0x02000018, .wait, .write 0x000 4 0x03000000, .wait] := by decide +kernel

/-! Witnesses: for each statement with hypotheses, concrete states and operands that meet all of them together, each clause
at the edges of its range. The name after `witness_` is the statement's. -/

theorem accesses_accessing (e : Engine) (op : HostOp) : (accessing e op).Accesses 0 ⟨[op], []⟩ op [] := ⟨rfl, rfl, rfl⟩

theorem moves_pending (e : Engine) (w : Word32) : (pending e w).EngineMoves := ⟨rfl, rfl⟩

theorem writes_accessing (e : Engine) (off : Nat) (v : Word32) :
    (accessing e (.write (0x4000 + off) 4 v)).WritesReg off v := ⟨0, _, [], accesses_accessing e _⟩

theorem witness_DecodeOfEncode :
    [Instr.nop, .init, .append 0, .append 64, .final].all Instr.wellFormed = true := by decide

theorem witness_EncodeOfDecode : decode 0x02000040 = .command (.append 64) := by decide

/-- The four kinds of word, and the idle turn. -/
theorem witness_EngineStepRunsDecodedCommand :
    ((pending Engine.reset 0x02000040).EngineMoves ∧ decode 0x02000040 = .command (.append 64)) ∧
    ((pending Engine.reset 0x04000000).EngineMoves ∧ decode 0x04000000 = .illegalOp) ∧
    ((pending Engine.reset 0x02000041).EngineMoves ∧ decode 0x02000041 = .illegalCnt) ∧
    (let s := { stateOf Engine.reset with turns := [.engine] }; s.mover = some .engine ∧ s.engine.busy = false) :=
  ⟨⟨moves_pending _ _, by decide⟩, ⟨moves_pending _ _, by decide⟩, ⟨moves_pending _ _, by decide⟩, by decide⟩

theorem witness_IssuedWordRunsNext : decodeTableWord 32 0x02000040 = some (.append 64) := by decide

/-- A reserved opcode (the lowest), the lowest and the highest reserved bit, a count outside APPEND. -/
theorem witness_IllegalOpRejection :
    ((pending Engine.reset 0x04000000).EngineMoves ∧ 0x04 ≤ ((0x04000000 : Word32).extractLsb' 24 8).toNat) ∧
    ((pending Engine.reset 0x02000080).EngineMoves ∧ (0x02000080 : Word32).extractLsb' 7 17 ≠ 0) ∧
    ((pending Engine.reset 0x02800000).EngineMoves ∧ (0x02800000 : Word32).extractLsb' 7 17 ≠ 0) ∧
    ((pending Engine.reset 0x03000001).EngineMoves ∧ (0x03000001 : Word32).extractLsb' 24 8 = 0x03 ∧
      (0x03000001 : Word32).extractLsb' 0 7 ≠ 0) :=
  ⟨⟨moves_pending _ _, by decide⟩, ⟨moves_pending _ _, by decide⟩, ⟨moves_pending _ _, by decide⟩,
    ⟨moves_pending _ _, by decide⟩⟩

/-- The counts 65 and 127. -/
theorem witness_IllegalCountRejection :
    ∀ w ∈ [(0x02000041 : Word32), 0x0200007F], (pending Engine.reset w).EngineMoves ∧ w.extractLsb' 24 8 = 0x02 ∧
      w.extractLsb' 7 17 = 0 ∧ 64 < (w.extractLsb' 0 7).toNat :=
  fun w hw => ⟨moves_pending _ _, by
    rcases List.mem_pair.1 hw with rfl | rfl <;> decide⟩

theorem witness_SequenceErrorWhenDone :
    (([Instr.append 0, .append 64, .final].all Instr.wellFormed = true) ∧ (stateOf doneEngine).engine.ph = .done) ∧
    ((pending doneEngine 0x02000040).EngineMoves ∧ decode 0x02000040 = .command (.append 64)) ∧
    ((pending doneEngine 0x03000000).EngineMoves ∧ decode 0x03000000 = .command .final) :=
  ⟨⟨by decide, rfl⟩, ⟨moves_pending _ _, by decide⟩, ⟨moves_pending _ _, by decide⟩⟩

/-- The three rejected kinds: illegal word, APPEND in phase DONE, FINALIZE in phase DONE. -/
theorem witness_RejectionIsPrecise :
    ((pending Engine.reset 0x04000000).EngineMoves ∧ ∀ i, decode 0x04000000 ≠ .command i) ∧
    ((pending doneEngine 0x02000000).EngineMoves ∧ doneEngine.ph = .done ∧ decode 0x02000000 = .command (.append 0)) ∧
    ((pending doneEngine 0x03000000).EngineMoves ∧ doneEngine.ph = .done ∧ decode 0x03000000 = .command .final) :=
  ⟨⟨moves_pending _ _, fun i h => by
      rw [show decode 0x04000000 = .illegalOp by decide] at h
      exact nomatch h⟩,
    ⟨moves_pending _ _, rfl, by decide⟩, ⟨moves_pending _ _, rfl, by decide⟩⟩

/-- A CMD write while busy; in phase DONE a reserved opcode, a reserved bit of an APPEND and a count outside APPEND, each
with CNT = 127; CNT = 65 in phase DONE; FINALIZE in phase DONE. -/
theorem witness_OneErrorByPriority :
    (let s := accessing { doneEngine with busy := true } (.write (0x4000 + 0x000) 4 0x040000FF);
      s.Accesses 0 ⟨[.write (0x4000 + 0x000) 4 0x040000FF], []⟩ (.write (s.engineBase + 0x000) 4 0x040000FF) [] ∧
      s.engine.busy = true) ∧
    ((pending doneEngine 0x0400007F).EngineMoves ∧ 0x04 ≤ (opField 0x0400007F).toNat) ∧
    ((pending doneEngine 0x020000FF).EngineMoves ∧ rsvField 0x020000FF ≠ 0) ∧
    ((pending doneEngine 0x0300007F).EngineMoves ∧ opField 0x0300007F ≠ 0x02 ∧ cntField 0x0300007F ≠ 0) ∧
    ((pending doneEngine 0x02000041).EngineMoves ∧ rsvField 0x02000041 = 0 ∧ opField 0x02000041 = 0x02 ∧
      64 < (cntField 0x02000041).toNat) ∧
    ((pending doneEngine 0x03000000).EngineMoves ∧ doneEngine.ph = .done ∧ decode 0x03000000 = .command .final) :=
  ⟨⟨accesses_accessing _ _, rfl⟩, ⟨moves_pending _ _, by decide⟩, ⟨moves_pending _ _, by decide⟩,
    ⟨moves_pending _ _, by decide⟩, ⟨moves_pending _ _, by decide⟩, ⟨moves_pending _ _, rfl, by decide⟩⟩

theorem witness_NopChangesNothing :
    (pending doneEngine 0x00000000).EngineMoves ∧ (pending doneEngine 0x00000000).engine.cmdl = 0x00000000 :=
  ⟨moves_pending _ _, rfl⟩

/-- The counts 0 and 64, one bit short of a full block, exactly full, and over it. -/
theorem witness_AppendAbsorbsItsBits :
    ((stateOf { Engine.reset with nb := 511 }).engine.ph = .accum ∧ (511 : BitVec 9).toNat + 0 < 512 ∧ 0 ≤ 64) ∧
    ((stateOf { Engine.reset with nb := 447 }).engine.ph = .accum ∧ (447 : BitVec 9).toNat + 64 < 512) ∧
    ((stateOf { Engine.reset with nb := 448 }).engine.ph = .accum ∧ 512 ≤ (448 : BitVec 9).toNat + 64) ∧
    ((stateOf { Engine.reset with nb := 511 }).engine.ph = .accum ∧ 512 ≤ (511 : BitVec 9).toNat + 1) := by decide

theorem witness_AppendOfNothing :
    (stateOf Engine.reset).engine.ph = .accum ∧ (stateOf doneEngine).engine.ph = .done := by decide

theorem witness_BitsBelowCountAreIgnored :
    (∀ k, k < 0 → dataBit 0 k = dataBit (BitVec.allOnes 64) k) ∧
    (∀ k, k < 63 → dataBit 0x5A5A5A5A5A5A5A5A k = dataBit 0x5A5A5A5A5A5A5A5B k) := by decide

/-- The cursors 0, 255, 256 and 511 over an empty block. -/
theorem witness_FinalizePadsAndLatchesDigest :
    ∀ n ∈ [(0 : BitVec 9), 255, 256, 511], (stateOf { Engine.reset with nb := n }).engine.ph = .accum ∧
      Engine.TailZero { Engine.reset with nb := n } :=
  fun _ _ => ⟨rfl, fun p _ _ => blockBit_zeroBlock p⟩

theorem witness_FinalizerMachineIsFinalize : Engine.reset.ph = .accum := rfl

theorem witness_LengthAdditionByteByByte : 64 ≤ 64 ∧ 0 ≤ 64 := by decide

/-- A last group of 7 bits and of none. -/
theorem witness_ByteAtATimeIsBitwise :
    Engine.TailZero { Engine.reset with nb := 511 } ∧
    (7 < 8 ∧ ∀ k, 7 ≤ k → k < 8 → byteBit 0xFE k = false) ∧ (0 < 8 ∧ ∀ k, 0 ≤ k → k < 8 → byteBit 0x00 k = false) := by
  refine ⟨fun p _ _ => blockBit_zeroBlock p, ⟨by decide, ?_⟩, ⟨by decide, fun k _ _ => by simp⟩⟩
  intro k h1 h2
  rw [show k = 7 by omega]
  decide

/-- One string cut in two ways, with an empty chunk and a chunk of 64 bits. -/
theorem witness_ChunkInvariance :
    (stateOf Engine.reset).engine.ph = .accum ∧
    (∀ c ∈ [[], List.replicate 64 true, [false]], c.length ≤ 64) ∧
    (∀ d ∈ [[true], List.replicate 63 true ++ [false]], d.length ≤ 64) ∧
    [[], List.replicate 64 true, [false]].flatten = [[true], List.replicate 63 true ++ [false]].flatten := by decide

/-- From reset, and after INIT in phase DONE. -/
theorem witness_AccumulatorAfterMessage :
    (∀ c ∈ [[], List.replicate 64 true], c.length ≤ 64) ∧ ∃ t, exec .init (stateOf doneEngine) = .next t :=
  ⟨by decide, _, rfl⟩

theorem witness_DigestOfMessage :
    (∀ c ∈ [[], List.replicate 64 true], c.length ≤ 64) ∧ [[], List.replicate 64 true].flatten.length < 2 ^ 256 := by
  decide

/-- The first and the last offset of every clause. -/
theorem witness_RegisterReads :
    ∀ off ∈ [0x000, 0x004, 0x008, 0x00C, 0x010, 0x03C, 0x040, 0x07C, 0x080, 0x0FC], off < 0x100 ∧ off % 4 = 0 ∧
      (accessing Engine.reset (.read (0x4000 + off) 4)).Accesses 0 ⟨[.read (0x4000 + off) 4], []⟩
        (.read (0x4000 + off) 4) [] := by
  intro off h
  refine ⟨?_, ?_, accesses_accessing _ _⟩ <;> revert off <;> decide

theorem witness_DinHalvesAreWritten :
    ∀ off ∈ [0x008, 0x00C], (accessing Engine.reset (.write (0x4000 + off) 4 0xFFFFFFFF)).Accesses 0
      ⟨[.write (0x4000 + off) 4 0xFFFFFFFF], []⟩ (.write (0x4000 + off) 4 0xFFFFFFFF) [] :=
  fun _ _ => accesses_accessing _ _

theorem witness_StatusWriteClearsFlags :
    (accessing doneEngine (.write (0x4000 + 0x004) 4 0x000000F0)).Accesses 0
      ⟨[.write (0x4000 + 0x004) 4 0x000000F0], []⟩ (.write (0x4000 + 0x004) 4 0x000000F0) [] := accesses_accessing _ _

theorem witness_CmdWriteAcceptsOrDrops :
    ∀ b : Bool, (accessing { Engine.reset with busy := b } (.write (0x4000 + 0x000) 4 0x01000000)).Accesses 0
      ⟨[.write (0x4000 + 0x000) 4 0x01000000], []⟩ (.write (0x4000 + 0x000) 4 0x01000000) [] :=
  fun _ => accesses_accessing _ _

theorem witness_ReadOnlyWritesAreIgnored :
    ∀ off ∈ [0x010, 0x03C, 0x040, 0x07C, 0x080, 0x0FC], 0x010 ≤ off ∧ off < 0x100 ∧ off % 4 = 0 ∧
      (accessing Engine.reset (.write (0x4000 + off) 4 0xFFFFFFFF)).Accesses 0
        ⟨[.write (0x4000 + off) 4 0xFFFFFFFF], []⟩ (.write (0x4000 + off) 4 0xFFFFFFFF) [] := by
  intro off h
  refine ⟨?_, ?_, ?_, accesses_accessing _ _⟩ <;> revert off <;> decide

/-- A narrow access, a wide one, and an unaligned one. -/
theorem witness_OddAccessesDoNothing :
    ∀ a ∈ [(0x000, 1), (0x008, 8), (0x0FF, 4)], a.1 < 0x100 ∧ (a.2 ≠ 4 ∨ a.1 % 4 ≠ 0) ∧
      (accessing Engine.reset (.write (0x4000 + a.1) a.2 0xFFFFFFFF)).Accesses 0
        ⟨[.write (0x4000 + a.1) a.2 0xFFFFFFFF], []⟩ (.write (0x4000 + a.1) a.2 0xFFFFFFFF) [] ∧
      (accessing Engine.reset (.read (0x4000 + a.1) a.2)).Accesses 0
        ⟨[.read (0x4000 + a.1) a.2], []⟩ (.read (0x4000 + a.1) a.2) [] := by
  intro a h
  refine ⟨?_, ?_, accesses_accessing _ _, accesses_accessing _ _⟩ <;> revert a <;> decide

/-- The addresses just below and just above the window at 0x4000. -/
theorem witness_AccessOutsideWindowStops :
    ∀ addr ∈ [0x3FFF, 0x4100], (addr < 0x4000 ∨ 0x4000 + 0x100 ≤ addr) ∧
      (accessing Engine.reset (.read addr 4)).Accesses 0 ⟨[.read addr 4], []⟩ (.read addr 4) [] ∧
      (accessing Engine.reset (.write addr 4 0)).Accesses 0 ⟨[.write addr 4 0], []⟩ (.write addr 4 0) [] := by
  intro addr h
  refine ⟨?_, accesses_accessing _ _, accesses_accessing _ _⟩
  revert addr
  decide

theorem witness_WaitPollsBusy :
    ∀ b : Bool, (accessing { Engine.reset with busy := b } .wait).Accesses 0 ⟨[.wait], []⟩ .wait [] :=
  fun _ => accesses_accessing _ _

/-- Two engines that differ in every hidden register. -/
theorem witness_HiddenStateCannotBeRead :
    let e := Engine.reset
    let e' := { e with h := Vector.replicate 8 1, w := Vector.replicate 64 1, nb := 1, len := 1, cmdl := 1, dinl := 1 }
    e.ph = e'.ph ∧ e.busy = e'.busy ∧ e.dv = e'.dv ∧ (∀ c, e.flag c = e'.flag c) ∧ e.din = e'.din ∧
      e.digest = e'.digest := ⟨rfl, rfl, rfl, fun c => by cases c <;> rfl, rfl, rfl⟩

theorem witness_DinRewriteLeavesPendingCommand :
    ∀ off ∈ [0x008, 0x00C],
      let s := accessing { Engine.reset with busy := true, cmdl := 0x02000040 } (.write (0x4000 + off) 4 0x12345678)
      s.engine.busy = true ∧ (off = 0x008 ∨ off = 0x00C) ∧ s.masters[0]? = some ⟨[.write (0x4000 + off) 4 0x12345678], []⟩ :=
  fun off h => ⟨rfl, by revert off h; decide, rfl⟩

theorem witness_CmdWriteRacesWithCompletion :
    let s := accessing { Engine.reset with busy := true, cmdl := 0x01000000 } (.write (0x4000 + 0x000) 4 0x00000000)
    s.engine.busy = true ∧ s.masters[0]? = some ⟨[.write (0x4000 + 0x000) 4 0x00000000], []⟩ := ⟨rfl, rfl⟩

theorem witness_ResetEvent : State.mover { pending doneEngine 0x03000000 with turns := [.reset] } = some .reset := rfl

/-- An engine in the middle of a message, with an APPEND pending. -/
theorem witness_InvariantKeptByEveryStep :
    let s := pending { Engine.reset with nb := 3, len := 515 } 0x02000040
    s.engine.Inv ∧ ∃ t, step s = .next t :=
  ⟨⟨fun p _ _ => blockBit_zeroBlock p, fun _ => by decide, nofun, fun _ => rfl⟩, _, rfl⟩

theorem witness_NothingStopsInsideWindow : (accessing Engine.reset (.write (0x4000 + 0x0FF) 1 0)).InWindow := by
  intro m hm op ho
  simp [accessing] at hm
  subst hm
  simp at ho
  subst ho
  decide

/-- A FINALIZE that completes (DV rises), and a reset that loses a digest. -/
theorem witness_DigestChangesOnlyAtFinalize :
    (∃ t, step (pending Engine.reset 0x03000000) = .next t ∧ t.engine.dv ≠ Engine.reset.dv) ∧
    (∃ t, step { stateOf { doneEngine with digest := Vector.replicate 64 1 } with turns := [.reset] } = .next t ∧
      t.engine.digest ≠ Vector.replicate 64 1) :=
  ⟨⟨_, rfl, by decide⟩, ⟨_, rfl, by decide⟩⟩

/-- INIT over a HashState that is not 0. -/
theorem witness_HashStateWriters :
    ∃ t, step (pending { Engine.reset with h := Vector.replicate 8 1 } 0x01000000) = .next t ∧
      t.engine.h ≠ Vector.replicate 8 1 := ⟨_, rfl, by decide⟩

/-- APPEND of one bit, and INIT. -/
theorem witness_LengthCounterWriters :
    (∃ t, step (pending Engine.reset 0x02000001) = .next t ∧ t.engine.len ≠ 0) ∧
    (∃ t, step (pending { Engine.reset with len := 1 } 0x01000000) = .next t ∧ t.engine.len ≠ 1) :=
  ⟨⟨_, rfl, by decide +kernel⟩, ⟨_, rfl, by decide⟩⟩

/-- FINALIZE, and INIT in phase DONE. -/
theorem witness_PhaseTransitions :
    (∃ t, step (pending Engine.reset 0x03000000) = .next t ∧ t.engine.ph ≠ .accum) ∧
    (∃ t, step (pending doneEngine 0x01000000) = .next t ∧ t.engine.ph ≠ .done) :=
  ⟨⟨_, rfl, by decide⟩, ⟨_, rfl, by decide⟩⟩

/-- A CMD write, and the engine step. -/
theorem witness_BusyChangesOnlyByCmdWriteOrCompletion :
    (∃ t, step (accessing Engine.reset (.write (0x4000 + 0x000) 4 0)) = .next t ∧ t.engine.busy = true) ∧
    (∃ t, step (pending Engine.reset 0x00000000) = .next t ∧ t.engine.busy = false) :=
  ⟨⟨_, rfl, rfl⟩, ⟨_, rfl, rfl⟩⟩

/-- Each of the four flags raised. -/
theorem witness_ErrorFlagCauses :
    (∃ t, step (pending Engine.reset 0x04000000) = .next t ∧ Engine.reset.flag .op = false ∧ t.engine.flag .op = true) ∧
    (∃ t, step (pending Engine.reset 0x02000041) = .next t ∧ Engine.reset.flag .cnt = false ∧ t.engine.flag .cnt = true) ∧
    (∃ t, step (pending doneEngine 0x02000000) = .next t ∧ doneEngine.flag .seq = false ∧ t.engine.flag .seq = true) ∧
    (∃ t, step (accessing { Engine.reset with busy := true } (.write (0x4000 + 0x000) 4 0)) = .next t ∧
      Engine.reset.flag .ovr = false ∧ t.engine.flag .ovr = true) :=
  ⟨⟨_, rfl, rfl, rfl⟩, ⟨_, rfl, rfl, rfl⟩, ⟨_, rfl, rfl, rfl⟩, ⟨_, rfl, rfl, rfl⟩⟩

/-- A STATUS write that clears a flag, and a reset. -/
theorem witness_ErrorFlagsAreSticky :
    (∃ t, step (accessing { Engine.reset with errOp := true } (.write (0x4000 + 0x004) 4 0x10)) = .next t ∧
      t.engine.flag .op = false) ∧
    (∃ t, step { stateOf { Engine.reset with errOp := true } with turns := [.reset] } = .next t ∧
      t.engine.flag .op = false) := ⟨⟨_, rfl, rfl⟩, ⟨_, rfl, rfl⟩⟩

/-- A pending command behind a planned host turn. -/
theorem witness_AcceptedCommandCompletes :
    let s := accessing { Engine.reset with busy := true } (.write (0x4000 + 0x0FF) 1 0)
    s.InWindow ∧ s.engine.busy = true := ⟨witness_NothingStopsInsideWindow, rfl⟩

/-- The access of the only master, which is number 0. -/
theorem witness_HostProgramsEnd :
    let s := accessing Engine.reset (.write (0x4000 + 0x0FF) 1 0)
    s.InWindow ∧ 0 < s.masters.length := ⟨witness_NothingStopsInsideWindow, by decide⟩

/-- An engine, the only master's program, and two polls planned before the engine's turn. -/
def running (e : Engine) (p : List HostOp) : State :=
  { stateOf e with masters := [⟨p, []⟩], turns := [.host 0, .host 0, .engine, .host 0] }

/-- An engine that is busy with a FINALIZE, and the message "abc". -/
theorem witness_SumProgramReadsDigest :
    let s := running { Engine.reset with busy := true, cmdl := 0x03000000 } (sumProgram 0x4000 [0x61, 0x62, 0x63])
    (.reset ∉ s.turns) ∧ s.masters = [⟨sumProgram s.engineBase [0x61, 0x62, 0x63], []⟩] ∧
      8 * [0x61, 0x62, 0x63].length < 2 ^ 256 := ⟨by decide, rfl, by decide⟩

/-- Program P5. -/
theorem witness_SaltsumProgramReadsDigest :
    let s := running Engine.reset (saltsumProgram 0x4000 [0x61, 0x62] [0x63])
    (.reset ∉ s.turns) ∧ s.masters = [⟨saltsumProgram s.engineBase [0x61, 0x62] [0x63], []⟩] ∧
      8 * ([0x61, 0x62].length + [0x63].length) < 2 ^ 256 := ⟨by decide, rfl, by decide⟩

/-- An empty group and a full one; and a string that is no whole number of bytes. -/
theorem witness_BitProgramReadsDigest :
    (let s := running Engine.reset (oneShot 0x4000 (appendgroups 0x4000 [[], List.replicate 64 true]))
     (.reset ∉ s.turns) ∧ s.masters = [⟨oneShot s.engineBase (appendgroups s.engineBase [[], List.replicate 64 true]), []⟩] ∧
      (∀ g ∈ [[], List.replicate 64 true], g.length ≤ 64) ∧ [[], List.replicate 64 true].flatten.length < 2 ^ 256) ∧
    (let s := running Engine.reset (oneShot 0x4000 (appendbits 0x4000 [true, false, true]))
     (.reset ∉ s.turns) ∧ s.masters = [⟨oneShot s.engineBase (appendbits s.engineBase [true, false, true]), []⟩] ∧
      [true, false, true].length < 2 ^ 256) := ⟨⟨by decide, rfl, by decide, by decide⟩, by decide, rfl, by decide⟩

/-- An engine that is busy and has an error flag set. -/
theorem witness_BootProgramStartsFresh :
    let s := running { doneEngine with errOp := true, busy := true, cmdl := 0x02000040 } (bootProgram 0x4000)
    (.reset ∉ s.turns) ∧ s.masters = [⟨bootProgram s.engineBase, []⟩] := ⟨by decide, rfl⟩

/-- A read of STATUS. -/
theorem witness_MasterRecordChangesOnlyByItsOwnAccess :
    let s := accessing Engine.reset (.read 0x4004 4)
    ∃ t, step s = .next t ∧ t.masters[0]? ≠ s.masters[0]? := ⟨_, rfl, by decide⟩

/-- R166: a program with no access left has ended when BUSY = 0, whatever reset is still planned. -/
theorem test_program_result :
    let s := { stateOf doneEngine with masters := [⟨[], [(0x4004, 0x06)]⟩, ⟨[.wait], []⟩], turns := [.reset] }
    s.resultOf 0 = some ⟨[(0x4004, 0x06)], doneEngine⟩ ∧ s.resultOf 1 = none ∧
      runResult 0 1 s = some ⟨[(0x4004, 0x06)], doneEngine⟩ := by decide

end Sys2Proof.Tests
end

/-! PROOFS. The statements about the engine's state (10_state.md): its invariant, the writers of H, LEN, PH and BUSY,
what a host can read of it, and its values after reset. -/

namespace Sys2Proof.Machine

/-! The message registers: what a command other than NOP works on. Host accesses and rejections leave all of them. -/

/-- The registers H, W, NB, LEN, PH, DIGEST and DV of `e'` are those of `e`. -/
structure Engine.SameMessageRegs (e e' : Engine) : Prop where
  h : e'.h = e.h
  w : e'.w = e.w
  nb : e'.nb = e.nb
  len : e'.len = e.len
  ph : e'.ph = e.ph
  digest : e'.digest = e.digest
  dv : e'.dv = e.dv

theorem Engine.sameMessageRegs_raise (e : Engine) (c : ErrCode) : e.SameMessageRegs (e.raise c) :=
  ⟨e.raise_h c, e.raise_w c, e.raise_nb c, e.raise_len c, e.raise_ph c, e.raise_digest c, e.raise_dv c⟩

theorem Engine.sameMessageRegs_complete (e : Engine) : e.SameMessageRegs e.complete := ⟨rfl, rfl, rfl, rfl, rfl, rfl, rfl⟩

theorem Engine.SameMessageRegs.complete {e e' : Engine} (h : e.SameMessageRegs e') : e.SameMessageRegs e'.complete :=
  ⟨h.h, h.w, h.nb, h.len, h.ph, h.digest, h.dv⟩

theorem Engine.sameMessageRegs_writeCmd (e : Engine) (w : Word32) : e.SameMessageRegs (e.writeCmd w) := by
  unfold Engine.writeCmd
  split
  · exact e.sameMessageRegs_raise .ovr
  · exact ⟨rfl, rfl, rfl, rfl, rfl, rfl, rfl⟩

/-- Only a reset, an INIT, and an APPEND or a FINALIZE in phase ACCUM write a message register. -/
theorem step_messageRegs_cases {s t : State} (h : step s = .next t) :
    s.engine.SameMessageRegs t.engine ∨
    (s.mover = some .reset ∧ t.engine = Engine.reset) ∨
    (s.EngineMoves ∧ decode s.engine.cmdl = .command .init ∧ t.engine = s.engine.init.complete) ∨
    (∃ n, s.EngineMoves ∧ decode s.engine.cmdl = .command (.append n) ∧ s.engine.ph = .accum ∧
      t.engine = (s.engine.append n).complete) ∨
    (s.EngineMoves ∧ decode s.engine.cmdl = .command .final ∧ s.engine.ph = .accum ∧
      t.engine = s.engine.finalize.complete) := by
  obtain ht | ⟨hm, ht⟩ | ⟨-, -, ht⟩ | ⟨-, -, ht⟩ | ⟨i, he, hd, ht⟩ | ⟨w, -, ht⟩ | ⟨v, -, ht⟩ | ⟨d, ht⟩ :=
    step_engine_cases h
  case inr.inl => exact .inr (.inl ⟨hm, ht⟩)
  case inr.inr.inr.inr.inl =>
    obtain ⟨rfl, hx⟩ | ⟨rfl, hx⟩ | ⟨n, rfl, -, hx⟩ | ⟨n, rfl, hp, hx⟩ | ⟨rfl, -, hx⟩ | ⟨rfl, hp, hx⟩ :=
      commandEffect_cases i s.engine <;> rw [hx] at ht
    · exact .inl (ht ▸ s.engine.sameMessageRegs_complete)
    · exact .inr (.inr (.inl ⟨he, hd, ht⟩))
    · exact .inl (ht ▸ (s.engine.sameMessageRegs_raise .seq).complete)
    · exact .inr (.inr (.inr (.inl ⟨n, he, hd, hp, ht⟩)))
    · exact .inl (ht ▸ (s.engine.sameMessageRegs_raise .seq).complete)
    · exact .inr (.inr (.inr (.inr ⟨he, hd, hp, ht⟩)))
  all_goals left; rw [ht]
  · exact ⟨rfl, rfl, rfl, rfl, rfl, rfl, rfl⟩
  · exact (s.engine.sameMessageRegs_raise .op).complete
  · exact (s.engine.sameMessageRegs_raise .cnt).complete
  · exact s.engine.sameMessageRegs_writeCmd w
  · exact ⟨rfl, rfl, rfl, rfl, rfl, rfl, rfl⟩
  · exact ⟨rfl, rfl, rfl, rfl, rfl, rfl, rfl⟩

/-! The invariant of the engine. -/

/-- The invariant speaks of the message registers only. -/
theorem Engine.Inv.congr {e e' : Engine} (hi : e.Inv) (h : e.SameMessageRegs e') : e'.Inv where
  tailZero p hlo hhi := by
    rw [h.w]
    exact hi.tailZero p (h.nb ▸ hlo) hhi
  cursor hp := by
    rw [h.nb, h.len]
    exact hi.cursor (h.ph ▸ hp)
  doneShape hp := by
    rw [h.nb, h.w, h.digest, h.h, h.dv]
    exact hi.doneShape (h.ph ▸ hp)
  digestBlank hv := by
    rw [h.digest]
    exact hi.digestBlank (h.dv ▸ hv)

theorem Engine.tailZero_of_zeroBlock {e : Engine} (h : e.w = zeroBlock) : e.TailZero := fun p _ _ => by
  rw [h, blockBit_zeroBlock]

theorem Engine.inv_reset : Engine.reset.Inv where
  tailZero := tailZero_of_zeroBlock rfl
  cursor _ := rfl
  doneShape hp := nomatch hp
  digestBlank _ := rfl

/-- INIT empties the accumulator and keeps DIGEST and DV. -/
theorem Engine.Inv.init {e : Engine} (hi : e.Inv) : e.init.Inv where
  tailZero := tailZero_of_zeroBlock rfl
  cursor _ := rfl
  doneShape hp := nomatch hp
  digestBlank := hi.digestBlank

/-- The cursor counts absorbed bits modulo 512, which is the wrap of its 9 bits (R15, R86). -/
theorem Engine.absorb_nb (e : Engine) (m : Bool) : (e.absorb m).nb = e.nb + 1 := by
  by_cases h : e.nb.toNat + 1 = 512
  · rw [e.absorb_of_full m h]
    apply BitVec.eq_of_toNat_eq
    simp [BitVec.toNat_add, h]
  · rw [e.absorb_of_lt m (by omega)]

theorem Engine.toNat_absorbBits_nb (e : Engine) (ms : List Bool) :
    (e.absorbBits ms).nb.toNat = (e.nb.toNat + ms.length) % 512 := by
  induction ms generalizing e with
  | nil => exact (Nat.mod_eq_of_lt e.nb.isLt).symm
  | cons m ms ih =>
    have hnb : (e.nb + 1).toNat = (e.nb.toNat + 1) % 512 := BitVec.toNat_add _ _
    rw [absorbBits_cons, ih, absorb_nb, hnb, List.length_cons]
    omega

/-- ABSORB writes the bit at the cursor and moves the cursor past it, or clears the full block. -/
theorem Engine.TailZero.absorb {e : Engine} (h : e.TailZero) (m : Bool) : (e.absorb m).TailZero := by
  by_cases hf : e.nb.toNat + 1 = 512
  · exact tailZero_of_zeroBlock (by rw [e.absorb_of_full m hf])
  · intro p hlo hhi
    have hnb : (e.nb + 1).toNat = (e.nb.toNat + 1) % 512 := BitVec.toNat_add _ _
    rw [absorb_nb, hnb] at hlo
    rw [e.absorb_of_lt m (by omega)]
    show blockBit (setBlockBit e.w e.nb.toNat m) p = false
    rw [blockBit_setBlockBit _ e.nb.isLt, if_neg (by omega)]
    exact h p (by omega) hhi

theorem Engine.TailZero.absorbBits {e : Engine} (h : e.TailZero) (ms : List Bool) : (e.absorbBits ms).TailZero := by
  induction ms generalizing e with
  | nil => exact h
  | cons m ms ih => exact ih (h.absorb m)

/-- APPEND moves the cursor and the counter by the same count; 512 divides the modulus of both (R84, R92). -/
theorem Engine.Inv.append {e : Engine} (hi : e.Inv) (hp : e.ph = .accum) (n : Nat) : (e.append n).Inv := by
  rw [e.append_frame n hp]
  exact {
    tailZero := hi.tailZero.absorbBits (chunk n e.dinl)
    cursor := fun _ => by
      have hc : e.nb.toNat = e.len.toNat % 512 := hi.cursor hp
      show (e.absorbBits (chunk n e.dinl)).nb.toNat = (lenAdd e.len n).toNat % 512
      rw [toNat_absorbBits_nb, length_chunk, toNat_lenAdd, hc]
      omega
    doneShape := fun hd => nomatch hp.symm.trans hd
    digestBlank := hi.digestBlank }

/-- FINALIZE leaves the empty accumulator and the new digest, whatever it started from (R112, R113). -/
theorem Engine.inv_finalize {e : Engine} (hp : e.ph = .accum) : e.finalize.Inv := by
  rw [e.finalize_frame hp]
  exact {
    tailZero := tailZero_of_zeroBlock rfl
    cursor := fun ha => nomatch ha
    doneShape := fun _ => ⟨rfl, rfl, rfl, rfl⟩
    digestBlank := fun hv => nomatch hv }

/-- Settles O45, by the cases of what a step does to the message registers. -/
theorem invariantKeptByEveryStep : Obligations.InvariantKeptByEveryStep := by
  intro s t hi h
  obtain hs | ⟨-, ht⟩ | ⟨-, -, ht⟩ | ⟨n, -, -, hp, ht⟩ | ⟨-, -, hp, ht⟩ := step_messageRegs_cases h
  · exact hi.congr hs
  all_goals rw [ht]
  · exact Engine.inv_reset
  · exact hi.init.congr (Engine.sameMessageRegs_complete _)
  · exact (hi.append hp n).congr (Engine.sameMessageRegs_complete _)
  · exact (Engine.inv_finalize hp).congr (Engine.sameMessageRegs_complete _)

/-- Settles O44: the reset state has an empty accumulator and a blank DIGEST. -/
theorem invariantAtReset : Obligations.InvariantAtReset := Engine.inv_reset

/-! The writers of H, LEN and PH. -/

/-- An APPEND that does not fill the block leaves H (R85). -/
theorem Engine.append_h_of_lt {e : Engine} {n : Nat} (hp : e.ph = .accum) (hn : e.nb.toNat + n < 512) :
    (e.append n).h = e.h := by
  rw [e.append_frame n hp]
  exact (e.absorbBits_of_lt (chunk n e.dinl) (by rwa [length_chunk])).1

/-- Settles O48: an APPEND that changes H has filled the block. -/
theorem hashStateWriters : Obligations.HashStateWriters := by
  intro s t h hne
  obtain hs | ⟨hm, -⟩ | ⟨he, hd, -⟩ | ⟨n, he, hd, hp, ht⟩ | ⟨he, hd, hp, -⟩ := step_messageRegs_cases h
  · exact absurd hs.h hne
  · exact .inl hm
  · exact .inr ⟨he, .inl hd⟩
  · have hfull : 512 ≤ s.engine.nb.toNat + n := by
      by_contra hlt
      refine hne ?_
      rw [ht, Engine.complete_h, Engine.append_h_of_lt hp (by omega)]
    exact .inr ⟨he, .inr ⟨hp, .inr ⟨n, hd, hfull⟩⟩⟩
  · exact .inr ⟨he, .inr ⟨hp, .inl hd⟩⟩

/-- Settles O49: FINALIZE, the one other command that writes a message register, keeps LEN. -/
theorem lengthCounterWriters : Obligations.LengthCounterWriters := by
  intro s t h hne
  obtain hs | ⟨hm, -⟩ | ⟨he, hd, -⟩ | ⟨n, he, hd, hp, -⟩ | ⟨-, -, hp, ht⟩ := step_messageRegs_cases h
  · exact absurd hs.len hne
  · exact .inl hm
  · exact .inr ⟨he, .inl hd⟩
  · exact .inr ⟨he, .inr ⟨hp, n, hd⟩⟩
  · refine absurd ?_ hne
    rw [ht, s.engine.finalize_frame hp]
    rfl

/-- Settles O50: APPEND, the one other command that writes a message register, keeps PH. -/
theorem phaseTransitions : Obligations.PhaseTransitions := by
  intro s t h hne
  obtain hs | ⟨hm, ht⟩ | ⟨he, hd, ht⟩ | ⟨n, -, -, hp, ht⟩ | ⟨he, hd, hp, ht⟩ := step_messageRegs_cases h
  · exact absurd hs.ph hne
  · exact .inr ⟨by rw [ht]; rfl, .inl hm⟩
  · exact .inr ⟨by rw [ht]; rfl, .inr ⟨he, hd⟩⟩
  · refine absurd ?_ hne
    rw [ht, s.engine.append_frame n hp]
    rfl
  · exact .inl ⟨by rw [ht, s.engine.finalize_frame hp]; rfl, he, hd⟩

/-! BUSY. -/

/-- After a CMD write a command is pending, the accepted one or the one that was pending already (R123). -/
@[simp] theorem Engine.writeCmd_busy (e : Engine) (w : Word32) : (e.writeCmd w).busy = true := by
  unfold Engine.writeCmd
  split
  case isTrue hb => rw [Engine.raise_busy, hb]
  case isFalse => rfl

/-- What one step does to BUSY: a CMD write sets it, the engine step and a reset clear it, anything else leaves it. -/
theorem step_busy_cases {s t : State} (h : step s = .next t) :
    t.engine.busy = s.engine.busy ∨
    ((∃ w, s.WritesReg 0x000 w) ∧ t.engine.busy = true) ∨
    ((s.mover = some .engine ∨ s.mover = some .reset) ∧ t.engine.busy = false) := by
  obtain ht | ⟨hm, ht⟩ | ⟨he, -, ht⟩ | ⟨he, -, ht⟩ | ⟨i, he, -, ht⟩ | ⟨w, hw, ht⟩ | ⟨v, -, ht⟩ | ⟨d, ht⟩ :=
    step_engine_cases h <;> rw [ht]
  · exact .inl rfl
  · exact .inr (.inr ⟨.inr hm, rfl⟩)
  · exact .inr (.inr ⟨.inl he.1, rfl⟩)
  · exact .inr (.inr ⟨.inl he.1, rfl⟩)
  · exact .inr (.inr ⟨.inl he.1, rfl⟩)
  · exact .inr (.inl ⟨⟨w, hw⟩, s.engine.writeCmd_busy w⟩)
  · exact .inl rfl
  · exact .inl rfl

/-- Settles O51, by the cases of what a step does to BUSY. -/
theorem busyChangesOnlyByCmdWriteOrCompletion : Obligations.BusyChangesOnlyByCmdWriteOrCompletion := by
  intro s t h
  obtain hs | ⟨hw, ht⟩ | ⟨hm, ht⟩ := step_busy_cases h
  · rw [hs]
    exact ⟨fun h0 h1 => (nomatch h0.symm.trans h1), fun h1 h0 => (nomatch h0.symm.trans h1)⟩
  · exact ⟨fun _ _ => hw, fun _ h0 => (nomatch h0.symm.trans ht)⟩
  · exact ⟨fun _ h1 => (nomatch ht.symm.trans h1), fun _ _ => hm⟩

/-! What a host reads. -/

/-- STATUS shows PH, BUSY, DV and the four flags (R125). -/
theorem Engine.status_congr {e e' : Engine} (hp : e.ph = e'.ph) (hb : e.busy = e'.busy) (hv : e.dv = e'.dv)
    (hf : ∀ c, e.flag c = e'.flag c) : e.status = e'.status := by
  have hop : e.errOp = e'.errOp := hf .op
  have hcnt : e.errCnt = e'.errCnt := hf .cnt
  have hseq : e.errSeq = e'.errSeq := hf .seq
  have hovr : e.errOvr = e'.errOvr := hf .ovr
  simp only [Engine.status, hp, hb, hv, hop, hcnt, hseq, hovr]

/-- The registers of the window read from STATUS, DIN and DIGEST only (R36, R125, R126, R127, R128). -/
theorem Engine.readReg_congr {e e' : Engine} (hs : e.status = e'.status) (hdin : e.din = e'.din)
    (hdig : e.digest = e'.digest) (r : Reg) : e.readReg r = e'.readReg r := by
  cases r with
  | cmd => rfl
  | status => exact hs
  | dinHi => exact congrArg dinHi hdin
  | dinLo => exact congrArg dinLo hdin
  | digest k => exact congrArg (digestReg · k) hdig
  | reserved => rfl

/-- Settles O38: every read is of a register or is 0 (R41). -/
theorem hiddenStateCannotBeRead : Obligations.HiddenStateCannotBeRead := by
  intro e e' hp hb hv hf hdin hdig off width
  simp only [Engine.readAt, Engine.readReg_congr (Engine.status_congr hp hb hv hf) hdin hdig]

/-! Reset. -/

/-- A state in phase ACCUM takes an APPEND: it completes in phase ACCUM and raises no flag (R82). -/
theorem exec_append_of_accum {s : State} (hp : s.engine.ph = .accum) (n : Nat) :
    ∃ t, exec (.append n) s = .next t ∧ t.engine.ph = .accum ∧ ∀ c, t.engine.flag c = s.engine.flag c := by
  refine ⟨_, exec_eq _ _, ?_⟩
  show (s.engine.append n).ph = .accum ∧ ∀ c, (s.engine.append n).flag c = s.engine.flag c
  rw [s.engine.append_frame n hp]
  exact ⟨hp, fun c => by cases c <;> rfl⟩

/-- Settles O41: the fields by evaluation, the first APPEND by what an APPEND in phase ACCUM does. -/
theorem resetValues : Obligations.ResetValues := by
  refine ⟨⟨rfl, rfl, rfl, rfl, rfl, rfl, rfl, rfl, rfl, rfl, rfl, rfl, rfl, by decide⟩, fun n _ => ?_⟩
  obtain ⟨t, hx, hp, hf⟩ := exec_append_of_accum (s := State.reset) rfl n
  exact ⟨t, hx, hp, fun c => by rw [hf c]; cases c <;> rfl⟩

end Sys2Proof.Machine

/-! PROOFS. The statements about the host's accesses (20_memory.md): the accesses that do nothing or stop the machine, a
DIN write beside a pending command, and the record of a master. -/

namespace Sys2Proof.Machine

/-! Accesses of another width or alignment, and accesses outside the window. -/

theorem Engine.readAt_of_odd (e : Engine) {off width : Nat} (h : width ≠ 4 ∨ off % 4 ≠ 0) : e.readAt off width = 0 :=
  if_neg fun ⟨hw, ho⟩ => h.elim (· hw) (· ho)

theorem Engine.writeAt_of_odd (e : Engine) {off width : Nat} (h : width ≠ 4 ∨ off % 4 ≠ 0) (v : Word32) :
    e.writeAt off width v = e :=
  if_neg fun ⟨hw, ho⟩ => h.elim (· hw) (· ho)

theorem inWindow_add {base off : Nat} (h : off < 0x100) : inWindow base (base + off) = true :=
  (inWindow_iff _ _).2 ⟨Nat.le_add_right _ _, Nat.add_lt_add_left h _⟩

theorem step_of_read_offset {s : State} {k : Nat} {m : Master} {rest : List HostOp} {off width : Nat}
    (h : s.Accesses k m (.read (s.engineBase + off) width) rest) (hoff : off < 0x100) :
    step s = .next (s.popTurn.setMaster k ⟨rest, m.reads ++ [(s.engineBase + off, s.engine.readAt off width)]⟩) := by
  rw [step_of_read h (inWindow_add hoff), Nat.add_sub_cancel_left]

theorem step_of_write_offset {s : State} {k : Nat} {m : Master} {rest : List HostOp} {off width : Nat} {v : Word32}
    (h : s.Accesses k m (.write (s.engineBase + off) width v) rest) (hoff : off < 0x100) :
    step s = .next ((s.popTurn.mapEngine fun e => e.writeAt off width v).setMaster k ⟨rest, m.reads⟩) := by
  rw [step_of_write h (inWindow_add hoff), Nat.add_sub_cancel_left]

/-- Settles O35: such an access reads 0 or writes the engine back as it was. -/
theorem oddAccessesDoNothing : Obligations.OddAccessesDoNothing := by
  intro s k m rest off width hoff hodd
  refine ⟨fun v ha => ?_, fun ha => ?_⟩
  · rw [step_of_write_offset ha hoff, State.mapEngine, Engine.writeAt_of_odd _ hodd]
  · rw [step_of_read_offset ha hoff, Engine.readAt_of_odd _ hodd]

/-- Settles O36: the address fails the bounds of the window. -/
theorem accessOutsideWindowStops : Obligations.AccessOutsideWindowStops := by
  intro s k m rest addr width haddr
  have hw : inWindow s.engineBase addr = false := by
    rw [Bool.eq_false_iff, Ne, inWindow_iff]
    omega
  exact step_outside_window hw

/-! A DIN write beside a pending command. -/

theorem run_two {s t u : State} (h : step s = .next t) (h' : step t = .next u) :
    Host.Core.run core 2 s = .next u :=
  (run_succ h).trans (run_succ h')

/-- A write of either half of DIN changes DIN only, to a value that depends on DIN only (R120, R121). -/
theorem Engine.writeAt_din {off : Nat} (h : off = 0x008 ∨ off = 0x00C) (v : Word32) :
    ∃ f : Word64 → Word64, ∀ e : Engine, e.writeAt off 4 v = { e with din := f e.din } := by
  obtain rfl | rfl := h
  · exact ⟨fun d => v ++ dinLo d, fun _ => rfl⟩
  · exact ⟨fun d => dinHi d ++ v, fun _ => rfl⟩

/-- The engine step and a write of DIN commute (R52). -/
theorem Engine.stepped_writeAt_din {off : Nat} (h : off = 0x008 ∨ off = 0x00C) (v : Word32) (e : Engine) :
    (e.writeAt off 4 v).stepped = e.stepped.writeAt off 4 v := by
  obtain ⟨f, hf⟩ := Engine.writeAt_din h v
  obtain ⟨-, -, -, hdin, -⟩ := e.stepped_frame
  rw [hf, hf, e.stepped_din, hdin]

/-- A write of DIN leaves BUSY. -/
theorem Engine.writeAt_din_busy {off : Nat} (h : off = 0x008 ∨ off = 0x00C) (v : Word32) (e : Engine) :
    (e.writeAt off 4 v).busy = e.busy := by
  obtain ⟨f, hf⟩ := Engine.writeAt_din h v
  rw [hf]

/-- Settles O39: the two orders end in engines that `Engine.stepped_writeAt_din` identifies. -/
theorem dinRewriteLeavesPendingCommand : Obligations.DinRewriteLeavesPendingCommand := by
  intro s k m rest off v ts hbusy hoff hm hprog
  have hlt : off < 0x100 := by omega
  have hwrite (e : Engine) (us : List Turn) : step { s with engine := e, turns := .host k :: us } =
      .next (State.setMaster { s with engine := e.writeAt off 4 v, turns := us } k ⟨rest, m.reads⟩) :=
    step_of_write_offset ⟨rfl, hm, hprog⟩ hlt
  have hengine (u : State) (us : List Turn) (hb : u.engine.busy = true) :
      step { u with turns := .engine :: us } = .next { u with engine := u.engine.stepped, turns := us } :=
    step_of_engineMoves ⟨rfl, hb⟩
  have hlast : step (State.setMaster { s with engine := s.engine.writeAt off 4 v, turns := .engine :: ts } k
      ⟨rest, m.reads⟩) =
      .next (State.setMaster { s with engine := s.engine.stepped.writeAt off 4 v, turns := ts } k ⟨rest, m.reads⟩) := by
    rw [← Engine.stepped_writeAt_din hoff]
    exact hengine (State.setMaster { s with engine := s.engine.writeAt off 4 v } k ⟨rest, m.reads⟩) ts
      ((Engine.writeAt_din_busy hoff v s.engine).trans hbusy)
  exact ⟨_, run_two (hwrite s.engine (.engine :: ts)) hlast, run_two (hengine s (.host k :: ts) hbusy)
    (hwrite s.engine.stepped ts)⟩

/-! The record of a master. -/

/-- A step leaves the masters, or it is an access of one of them, whose record alone it replaces; its reads only grow. -/
theorem step_masters_cases {s t : State} (h : step s = .next t) :
    t.masters = s.masters ∨
    ∃ k m op rest m', s.Accesses k m op rest ∧ t.masters = s.masters.set k m' ∧ m.reads <+: m'.reads := by
  obtain ⟨-, rfl⟩ | ⟨-, rfl⟩ | ⟨-, -, rfl⟩ | ⟨-, -, rfl⟩ | ⟨-, -, rfl⟩ | ⟨i, -, -, rfl⟩ | ⟨k, -, rfl⟩ |
    ⟨k, m, rest, addr, width, ha, -, rfl⟩ | ⟨k, m, rest, addr, width, v, ha, -, rfl⟩ | ⟨k, m, rest, ha, rfl⟩ :=
    step_cases h
  · exact .inl rfl
  · exact .inl rfl
  · exact .inl rfl
  · exact .inl rfl
  · exact .inl rfl
  · exact .inl rfl
  · exact .inl rfl
  · exact .inr ⟨k, m, _, rest, _, ha, rfl, List.prefix_append _ _⟩
  · exact .inr ⟨k, m, _, rest, _, ha, rfl, List.prefix_rfl⟩
  · exact .inr ⟨k, m, _, rest, _, ha, rfl, List.prefix_append _ _⟩

/-- Settles O60: a step that changes the record of a master is that master's access. -/
theorem masterRecordChangesOnlyByItsOwnAccess : Obligations.MasterRecordChangesOnlyByItsOwnAccess := by
  intro s t k h hne
  obtain hs | ⟨j, m, op, rest, m', ⟨hmover, hm, hprog⟩, ht, hreads⟩ := step_masters_cases h
  · exact absurd (congrArg (·[k]?) hs) hne
  · have hjk : j = k := by
      by_contra hjk
      exact hne (by rw [ht, List.getElem?_set_ne hjk])
    subst hjk
    have hlt : j < s.masters.length := (List.getElem?_eq_some_iff.1 hm).1
    exact ⟨m, m', hmover, hm, by rw [hprog]; exact List.cons_ne_nil _ _, by rw [ht, List.getElem?_set_self hlt], hreads⟩

end Sys2Proof.Machine

/-! PROOFS. The statements about the encoding (30_encoding.md): the decoder and the encoder are inverse on legal commands,
the bits of DINL below the count, `wait`, and the programs around the message that they append. -/

namespace Sys2Proof

/-! The decoder and the encoder. -/

/-- What the checks of R60 leave of a word that decodes to a command: its fields are those of that legal command. -/
theorem fields_of_decode {w : Word32} {i : Instr} (h : decode w = .command i) :
    rsvField w = 0 ∧ opField w = i.opcode ∧ cntField w = i.cnt ∧ i.wellFormed = true := by
  unfold decode at h
  split_ifs at h with hop hcnt hmax h0 h1 h2
  all_goals
    obtain rfl := Decoded.command.inj h
    obtain ⟨hlt, hrsv⟩ := not_or.1 hop
    rw [not_not] at hrsv
    have hzero : opField w ≠ 0x02 → cntField w = 0 := fun ho => not_not.1 fun hc => hcnt ⟨ho, hc⟩
  · exact ⟨hrsv, h0, hzero (by rw [h0]; decide), rfl⟩
  · exact ⟨hrsv, h1, hzero (by rw [h1]; decide), rfl⟩
  · exact ⟨hrsv, h2, by simp [Instr.cnt], decide_eq_true (Nat.le_of_not_lt fun hc => hmax ⟨h2, hc⟩)⟩
  · have h3 : opField w = 0x03 := by bv_omega
    exact ⟨hrsv, h3, hzero h2, rfl⟩

/-- A word with the fields of a legal command passes the checks of R60. -/
theorem decode_of_fields {w : Word32} {i : Instr} (hrsv : rsvField w = 0) (hop : opField w = i.opcode)
    (hcnt : cntField w = i.cnt) (hi : i.wellFormed = true) : decode w = .command i := by
  unfold decode
  rw [hrsv, hop, hcnt]
  cases i with
  | nop => rfl
  | init => rfl
  | append n =>
    have hn : n ≤ 64 := of_decide_eq_true hi
    have hc : (BitVec.ofNat 7 n).toNat = n := by rw [BitVec.toNat_ofNat]; omega
    simp [Instr.opcode, Instr.cnt, hc, Config.maxAppendBits, hn]
  | final => rfl

/-- Settles O1: the fields of a command's word are the command's own. -/
theorem decodeOfEncode : Obligations.DecodeOfEncode := fun _ hi =>
  decode_of_fields (rsvField_encodeFields _ _) (opField_encodeFields _ _) (cntField_encodeFields _ _) hi

/-- Settles O2: a word with RSV = 0 is made of its other two fields, which are the command's. -/
theorem encodeOfDecode : Obligations.EncodeOfDecode := by
  intro w i h
  obtain ⟨hrsv, hop, hcnt, hi⟩ := fields_of_decode h
  refine ⟨hi, ?_⟩
  rw [encode, ← hop, ← hcnt, encodeFields_fields w hrsv]

theorem decode_eq_command_iff {w : Word32} {i : Instr} :
    decode w = .command i ↔ i.wellFormed = true ∧ w = encode i := by
  refine ⟨fun h => ?_, fun ⟨hi, hw⟩ => hw ▸ decodeOfEncode i hi⟩
  obtain ⟨hi, hw⟩ := encodeOfDecode w i h
  exact ⟨hi, hw.symm⟩

theorem wellFormed_append_iff {n : Nat} : (Instr.append n).wellFormed = true ↔ n ≤ 64 := decide_eq_true_iff

theorem decode_encode_append {n : Nat} (hn : n ≤ 64) : decode (encode (.append n)) = .command (.append n) :=
  decodeOfEncode _ (wellFormed_append_iff.2 hn)

/-- The count is added to the word of APPEND 0 (R64). -/
theorem encode_append {n : Nat} (hn : n ≤ 64) : encode (.append n) = 0x02000000 + BitVec.ofNat 32 n := by
  have hall : ∀ k : Fin 65, encode (.append k.val) = 0x02000000 + BitVec.ofNat 32 k.val := by decide
  exact hall ⟨n, Nat.lt_succ_of_le hn⟩

/-- Settles O3: a word decodes to a command exactly when it is the word of that command and the command is legal. -/
theorem legalWordsAreTheListed68 : Obligations.LegalWordsAreTheListed68 := by
  intro w
  have hnop : decode w = .command .nop ↔ w = 0x00000000 :=
    decode_eq_command_iff.trans (and_iff_right rfl)
  have hinit : decode w = .command .init ↔ w = 0x01000000 :=
    decode_eq_command_iff.trans (and_iff_right rfl)
  have happend (n : Nat) : decode w = .command (.append n) ↔ n ≤ 64 ∧ w = 0x02000000 + BitVec.ofNat 32 n := by
    rw [decode_eq_command_iff, wellFormed_append_iff]
    exact and_congr_right fun hn => by rw [encode_append hn]
  have hfinal : decode w = .command .final ↔ w = 0x03000000 :=
    decode_eq_command_iff.trans (and_iff_right rfl)
  refine ⟨hnop, hinit, happend, hfinal, fun ⟨hw0, hw1, hw3, hw2⟩ => ?_⟩
  cases hd : decode w with
  | illegalOp => exact .inl rfl
  | illegalCnt => exact .inr rfl
  | command i =>
    cases i with
    | nop => exact absurd (hnop.1 hd) hw0
    | init => exact absurd (hinit.1 hd) hw1
    | append n =>
      obtain ⟨hn, hw⟩ := (happend n).1 hd
      exact absurd hw (hw2 n hn)
    | final => exact absurd (hfinal.1 hd) hw3

/-- Settles O4: each of the fifteen words is decoded. -/
theorem sampleWordsDecode : Obligations.SampleWordsDecode := by
  unfold Obligations.SampleWordsDecode
  decide

end Sys2Proof

namespace Sys2Proof.Machine

/-! The data operand of APPEND. -/

theorem chunk_congr {n : Nat} {d d' : Word64} (h : ∀ k, k < n → dataBit d k = dataBit d' k) : chunk n d = chunk n d' :=
  List.map_congr_left fun k hk => h k (List.mem_range.1 hk)

/-- ABSORB neither reads nor writes DINL. -/
theorem Engine.absorbBits_dinl_set (e : Engine) (d : Word64) (ms : List Bool) :
    Engine.absorbBits { e with dinl := d } ms = { e.absorbBits ms with dinl := d } := by
  rw [e.absorbBits_frame ms]
  exact Engine.absorbBits_withAccumulator { e with dinl := d } e ms

/-- APPEND sees no more of DINL than its chunk. -/
theorem Engine.append_dinl (e : Engine) {n : Nat} {d : Word64} (h : chunk n d = chunk n e.dinl) :
    Engine.append { e with dinl := d } n = { e.append n with dinl := d } := by
  obtain hp | hp : e.ph = .done ∨ e.ph = .accum := by cases e.ph <;> simp
  · rw [e.append_of_done n hp, Engine.append_of_done { e with dinl := d } n hp]
    rfl
  · rw [e.append_of_accum n hp, Engine.append_of_accum { e with dinl := d } n hp, h]
    exact Engine.absorbBits_dinl_set { e with len := lenAdd e.len n } d (chunk n e.dinl)

/-- Settles O16: two operands with equal first bits have one chunk. -/
theorem bitsBelowCountAreIgnored : Obligations.BitsBelowCountAreIgnored := by
  intro s n d d' h
  refine ⟨_, exec_eq _ _, ?_⟩
  rw [exec_eq]
  have he := Engine.append_dinl { s.engine with dinl := d } (d := d') (chunk_congr h).symm
  exact congrArg (fun e => Host.Outcome.next { s with engine := e }) he

/-! `wait`. -/

/-- Settles O37: bit 0 of STATUS is BUSY. -/
theorem waitPollsBusy : Obligations.WaitPollsBusy := by
  intro s k m rest h
  obtain ⟨hbusy, -⟩ := s.engine.status_bits
  rw [step_of_wait h]
  simp only [hostPoll, State.popTurn_engine, State.popTurn_engineBase, hbusy]

/-! The groups that the pseudo-instructions append, each a data word and a bit count. -/

/-- The group of up to 8 bytes (R67). -/
def byteGroup (c : List Byte) : Word64 × Nat := (packBytes c, 8 * c.length)

/-- The group of up to 64 bits (R68). -/
def bitGroup (c : List Bool) : Word64 × Nat := (leftJustify 64 c, c.length)

theorem appendAccesses_append (base : Nat) (gs hs : List (Word64 × Nat)) :
    appendAccesses base (gs ++ hs) = appendAccesses base gs ++ appendAccesses base hs := List.flatMap_append

theorem appendb_eq (base : Nat) (bytes : List Byte) :
    appendb base bytes = appendAccesses base ((pieces 8 bytes).map byteGroup) := by
  rw [appendAccesses, List.flatMap_map]
  rfl

theorem appendgroups_eq (base : Nat) (groups : List (List Bool)) :
    appendgroups base groups = appendAccesses base (groups.map bitGroup) := by
  rw [appendAccesses, List.flatMap_map]
  rfl

theorem groupBits_byteGroups {cs : List (List Byte)} (h : ∀ c ∈ cs, c.length ≤ 8) :
    groupBits (cs.map byteGroup) = bitsOfBytes cs.flatten := by
  rw [bitsOfBytes_flatten, groupBits, List.flatMap_map, List.flatMap_def]
  exact congrArg List.flatten (List.map_congr_left fun c hc => chunk_packBytes (h c hc))

theorem groupBits_bitGroups {groups : List (List Bool)} (h : ∀ c ∈ groups, c.length ≤ 64) :
    groupBits (groups.map bitGroup) = groups.flatten := by
  rw [groupBits, List.flatMap_map, List.flatMap_def]
  conv_rhs => rw [← List.map_id groups]
  exact congrArg List.flatten (List.map_congr_left fun c hc => chunk_leftJustify (h c hc))

/-! The one-shot programs. -/

/-- The one-shot program around byte strings of at most 8 bytes each, appended one after another (R67, R69). -/
theorem runResult_oneShot_bytes (s : State) {cs : List (List Byte)} (hc : ∀ c ∈ cs, c.length ≤ 8) (hr : .reset ∉ s.turns)
    (hm : s.masters = [⟨oneShot s.engineBase (appendAccesses s.engineBase (cs.map byteGroup)), []⟩])
    (hlen : 8 * cs.flatten.length < 2 ^ 256) :
    ∃ n r pre, runResult 0 n s = some r ∧
      r.reads = pre ++ digestReads s.engineBase (messageDigest (bitsOfBytes cs.flatten)) ∧
      r.engine.digest = messageDigest (bitsOfBytes cs.flatten) ∧ r.engine.dv = true ∧ r.engine.ph = .done ∧
      r.engine.len.toNat = 8 * cs.flatten.length := by
  have hd : ∀ g ∈ cs.map byteGroup, decode (encode (.append g.2)) = .command (.append g.2) :=
    List.forall_mem_map.2 fun c hmem => decode_encode_append (Nat.mul_le_mul_left 8 (hc c hmem))
  have h := runResult_oneShot s (cs.map byteGroup) hd hr hm
  rwa [groupBits_byteGroups hc, length_bitsOfBytes, Nat.mod_eq_of_lt hlen] at h

/-- Settles O56: `appendb` appends the pieces of the message. -/
theorem sumProgramReadsDigest : Obligations.SumProgramReadsDigest := by
  intro s msg hr hm hlen
  rw [sumProgram, appendb_eq] at hm
  rw [← flatten_pieces (n := 8) (by decide) msg] at hlen ⊢
  exact runResult_oneShot_bytes s (fun _ => length_of_mem_pieces) hr hm hlen

/-- Settles O57: the pieces of the salt and then those of the message are a cut of the whole. -/
theorem saltsumProgramReadsDigest : Obligations.SaltsumProgramReadsDigest := by
  intro s salt msg hr hm hlen
  rw [saltsumProgram, appendb_eq, appendb_eq, ← appendAccesses_append, ← List.map_append] at hm
  have hflat : (pieces 8 salt ++ pieces 8 msg).flatten = salt ++ msg := by
    rw [List.flatten_append, flatten_pieces (by decide), flatten_pieces (by decide)]
  have hc : ∀ c ∈ pieces 8 salt ++ pieces 8 msg, c.length ≤ 8 := fun c hmem =>
    (List.mem_append.1 hmem).elim length_of_mem_pieces length_of_mem_pieces
  rw [← List.length_append, ← hflat] at hlen ⊢
  exact runResult_oneShot_bytes s hc hr hm hlen

/-- The one-shot program around bit groups in any cut (R68). -/
theorem runResult_oneShot_bits (s : State) {groups : List (List Bool)} (hr : .reset ∉ s.turns)
    (hm : s.masters = [⟨oneShot s.engineBase (appendgroups s.engineBase groups), []⟩]) (hg : ∀ g ∈ groups, g.length ≤ 64) :
    ∃ n r pre, runResult 0 n s = some r ∧ r.reads = pre ++ digestReads s.engineBase (messageDigest groups.flatten) ∧
      r.engine.digest = messageDigest groups.flatten := by
  have hd : ∀ g ∈ groups.map bitGroup, decode (encode (.append g.2)) = .command (.append g.2) :=
    List.forall_mem_map.2 fun c hmem => decode_encode_append (hg c hmem)
  rw [appendgroups_eq] at hm
  obtain ⟨n, r, pre, hn, hreads, hdigest, -⟩ := runResult_oneShot s (groups.map bitGroup) hd hr hm
  rw [groupBits_bitGroups hg] at hreads hdigest
  exact ⟨n, r, pre, hn, hreads, hdigest⟩

/-- Settles O58: the model's own cut is one of the cuts. -/
theorem bitProgramReadsDigest : Obligations.BitProgramReadsDigest := by
  refine ⟨fun s groups hr hm hg _ => runResult_oneShot_bits s hr hm hg, fun s bits hr hm _ => ?_⟩
  have h := runResult_oneShot_bits s hr hm fun _ => length_of_mem_pieces
  rwa [flatten_pieces (by decide)] at h

end Sys2Proof.Machine

/-! PROOFS. The statement about the lookup tables (40_lookup_tables.md). That a stored table is what its construction
gives is a check of its printed values, entry by entry; that byte j of table j is the S-box follows from the
construction of C0, whose first coefficient is 1, and the rotation of R76. -/

namespace Sys2Proof.Machine

/-! Multiplication in the field (R74). -/

theorem gmulLoop_zero_right (n : Nat) (p a : Byte) : gmulLoop n p a 0 = p := by
  induction n generalizing a with
  | zero => rfl
  | succ n ih => simpa [gmulLoop] using ih (gdouble a)

/-- After the first iteration, which takes `a` in, no bit of the multiplier 1 is left. -/
theorem gmul_one (a : Byte) : gmul a 1 = a := by
  have hfirst : gmul a 1 = gmulLoop 7 (0 ^^^ a) (gdouble a) 0 := rfl
  rw [hfirst, gmulLoop_zero_right]
  exact BitVec.zero_xor

/-! The rotation of table j (R76). -/

/-- Rotation right by j bytes carries byte 0 to byte j. -/
theorem byteOf_rotr64 (v : Word64) (j : Fin 8) : byteOf j.val (rotr64 v (8 * j.val)) = byteOf 0 v := by
  apply BitVec.eq_of_getLsbD_eq
  intro q hq
  have hrot : 8 * j.val % 64 = 8 * j.val := Nat.mod_eq_of_lt (by omega)
  have hlow : 56 - 8 * j.val + q < 64 - 8 * j.val := by omega
  have hbit : 8 * j.val + (56 - 8 * j.val + q) = 56 + q := by omega
  simp [byteOf, rotr64, BitVec.getLsbD_rotateRight, hrot, hlow, hbit]

/-! The tables. -/

/-- R73, checked at each of the 256 entries. -/
theorem sbox_eq_sboxByMiniBoxes (x : Byte) : sbox x = sboxByMiniBoxes x := by
  revert x
  decide +kernel

/-- R75, checked at each of the 256 entries. -/
theorem c0_eq_c0ByField (x : Byte) : c0 x = c0ByField x := by
  revert x
  decide +kernel

/-- R79, checked for each of the ten rounds. -/
theorem rc_eq_rcBySbox (r : Fin 10) : rc (r.val + 1) = rcBySbox (r.val + 1) := by
  revert r
  decide +kernel

theorem byteOf_zero_c0 (x : Byte) : byteOf 0 (c0 x) = sbox x := by
  rw [c0_eq_c0ByField, c0ByField]
  calc byteOf 0 (be64 fun k => gmul (sbox x) (([1, 1, 4, 1, 8, 5, 2, 9] : List Byte).getD k.val 0))
      = gmul (sbox x) 1 := byteOf_be64 _ 0
    _ = sbox x := gmul_one (sbox x)

/-- R77, derived from R75 and R76. -/
theorem byteOf_cTable (j : Fin 8) (x : Byte) : byteOf j.val (cTable j.val x) = sbox x := by
  rw [cTable, byteOf_rotr64, byteOf_zero_c0]

/-- Settles O26: a check of the printed values, and R77 from R75 and R76. -/
theorem tablesMatchConstructions : Obligations.TablesMatchConstructions :=
  ⟨sbox_eq_sboxByMiniBoxes, c0_eq_c0ByField, byteOf_cTable, rc_eq_rcBySbox⟩

end Sys2Proof.Machine

/-! PROOFS. The statements about the bit accumulator (41_accumulator.md): what one APPEND does, that the byte-by-byte forms
of R84 and R87 are the main ones, and what appending a message in any cut leaves. -/

namespace Sys2Proof.Machine

/-! APPEND (R82). -/

/-- ABSORB of a chunk that fills the block and goes on (R85, R86): the filled block is compressed, the rest of the chunk
starts the next block. -/
theorem Engine.absorbBits_of_ge (e : Engine) (ms : List Bool) (hlo : 512 ≤ e.nb.toNat + ms.length)
    (hhi : e.nb.toNat + ms.length < 1024) :
    ∃ full : Block,
      (∀ p, p < 512 → blockBit full p =
        if p < e.nb.toNat then blockBit e.w p else ms.getD (p - e.nb.toNat) false) ∧
      (e.absorbBits ms).h = compress full e.h ∧ (e.absorbBits ms).nb.toNat = e.nb.toNat + ms.length - 512 ∧
      ∀ p, p < 512 → blockBit (e.absorbBits ms).w p = ms.getD (512 - e.nb.toNat + p) false := by
  have hnb := e.nb.isLt
  have htake : (ms.take (512 - e.nb.toNat)).length = 512 - e.nb.toNat := List.length_take_of_le (by omega)
  have hdrop : (ms.drop (512 - e.nb.toNat)).length = e.nb.toNat + ms.length - 512 := by rw [List.length_drop]; omega
  obtain ⟨full, hfull, hh, hw, hn⟩ := e.absorbBits_of_full (ms.take (512 - e.nb.toNat)) (by omega)
  have hn0 : (e.absorbBits (ms.take (512 - e.nb.toNat))).nb.toNat = 0 := by rw [hn]; rfl
  obtain ⟨hh', hn', hw'⟩ :=
    (e.absorbBits (ms.take (512 - e.nb.toNat))).absorbBits_of_lt (ms.drop (512 - e.nb.toNat)) (by omega)
  rw [← absorbBits_append, List.take_append_drop] at hh' hn' hw'
  refine ⟨full, fun p hp => ?_, hh'.trans hh, by omega, fun p hp => ?_⟩
  · rw [hfull p hp]
    split
    · rfl
    · rw [List.getD_eq_getElem?_getD, List.getElem?_take_of_lt (by omega), ← List.getD_eq_getElem?_getD]
  · rw [hw' p hp, hn0, hw, blockBit_zeroBlock, hdrop, Nat.sub_zero, List.getD_eq_getElem?_getD, List.getElem?_drop,
      ← List.getD_eq_getElem?_getD, Nat.zero_add]
    split
    · rfl
    · rw [List.getD_eq_default _ _ (by omega)]

/-- APPEND in phase ACCUM completes, and writes H, W, NB and LEN only. -/
theorem exec_append_eq {s : State} (hp : s.engine.ph = .accum) (n : Nat) :
    exec (.append n) s = .next { s with engine := { s.engine with
      h := (s.engine.absorbBits (chunk n s.engine.dinl)).h, w := (s.engine.absorbBits (chunk n s.engine.dinl)).w,
      nb := (s.engine.absorbBits (chunk n s.engine.dinl)).nb, len := lenAdd s.engine.len n } } := by
  rw [exec_eq, State.mapEngine, commandEffect, s.engine.append_frame n hp]

/-- Settles O14: the chunk of an APPEND either stays below the end of the block or reaches it once. -/
theorem appendAbsorbsItsBits : Obligations.AppendAbsorbsItsBits := by
  intro s n hn hp
  have hnb := s.engine.nb.isLt
  refine ⟨_, _, _, _, exec_append_eq hp n, toNat_lenAdd _ _, fun hlt => ?_, fun hge => ?_⟩
  · obtain ⟨hh, hn', hw⟩ := s.engine.absorbBits_of_lt (chunk n s.engine.dinl) (by rwa [length_chunk])
    rw [length_chunk] at hn' hw
    refine ⟨hh, hn', fun p hlt512 => ?_⟩
    rw [hw p hlt512, getD_chunk]
    split
    case isTrue hin => rw [decide_eq_true (by omega), Bool.true_and]
    case isFalse => rfl
  · obtain ⟨full, hfull, hh, hn', hw⟩ :=
      s.engine.absorbBits_of_ge (chunk n s.engine.dinl) (by rwa [length_chunk]) (by rw [length_chunk]; omega)
    rw [length_chunk] at hn'
    refine ⟨full, fun p hlt512 => ?_, hh, hn', fun p hlt512 => ?_⟩
    · rw [hfull p hlt512, getD_chunk]
      split
      case isTrue => rfl
      case isFalse => rw [decide_eq_true (by omega), Bool.true_and]
    · rw [hw p hlt512, getD_chunk]
      split
      case isTrue => rw [decide_eq_true (by omega), Bool.true_and]
      case isFalse => rw [decide_eq_false (by omega), Bool.false_and]

/-- Settles O15: the chunk is empty and the addition is of 0; in phase DONE the count plays no part. -/
theorem appendOfNothing : Obligations.AppendOfNothing := by
  refine ⟨fun s hp => ?_, fun s hp => ?_⟩
  · rw [exec_append_eq hp, lenAdd, BitVec.add_zero]
    rfl
  · rw [exec_eq, State.mapEngine, commandEffect, s.engine.append_of_done 0 hp]
    rfl

/-! The length counter byte by byte (R84). -/

/-- A byte moved up by `s` bits, bit by bit. -/
theorem getLsbD_byteAt (b : Byte) (s : Nat) {j : Nat} (hj : j < 256) :
    (b.setWidth 256 <<< s).getLsbD j = (decide (s ≤ j ∧ j < s + 8) && b.getLsbD (j - s)) := by
  rw [BitVec.getLsbD_shiftLeft, BitVec.getLsbD_setWidth]
  by_cases hin : s ≤ j ∧ j < s + 8
  · simp [hj, hin, show j - s < 256 by omega]
  · obtain hlow | hhigh : j < s ∨ 8 ≤ j - s := by omega
    · simp [hlow, hin]
    · simp [BitVec.getLsbD_of_ge b _ hhigh]

/-- The mask of a byte at bit `s`, bit by bit. -/
theorem getLsbD_byteMask (s : Nat) {j : Nat} (hj : j < 256) :
    (0xFF#256 <<< s).getLsbD j = decide (s ≤ j ∧ j < s + 8) := by
  rw [show 0xFF#256 = (BitVec.allOnes 8).setWidth 256 from rfl, getLsbD_byteAt _ _ hj, BitVec.getLsbD_allOnes,
    ← Bool.decide_and, decide_eq_decide]
  omega

/-- A byte of LEN does not overlap the other bytes. -/
theorem toNat_setLenByte (len : Length) {i : Nat} (hi : i < 32) (b : Byte) :
    (setLenByte len i b).toNat = (len &&& ~~~(0xFF#256 <<< (248 - 8 * i))).toNat + b.toNat * 2 ^ (248 - 8 * i) := by
  have hdisj : (len &&& ~~~(0xFF#256 <<< (248 - 8 * i))) &&& (b.setWidth 256 <<< (248 - 8 * i)) = 0 := by
    apply BitVec.eq_of_getLsbD_eq
    intro j hj
    rw [BitVec.getLsbD_and, BitVec.getLsbD_and, BitVec.getLsbD_not, getLsbD_byteMask _ hj, getLsbD_byteAt _ _ hj]
    cases decide (248 - 8 * i ≤ j ∧ j < 248 - 8 * i + 8) <;> simp
  have hbound : b.toNat * 2 ^ (248 - 8 * i) < 2 ^ 256 :=
    calc b.toNat * 2 ^ (248 - 8 * i) < 2 ^ 8 * 2 ^ (248 - 8 * i) := Nat.mul_lt_mul_of_pos_right b.isLt (Nat.two_pow_pos _)
      _ = 2 ^ (256 - 8 * i) := by rw [← Nat.pow_add, show 8 + (248 - 8 * i) = 256 - 8 * i by omega]
      _ ≤ 2 ^ 256 := Nat.pow_le_pow_right (by decide) (Nat.sub_le _ _)
  rw [setLenByte, ← BitVec.add_eq_or_of_and_eq_zero _ _ hdisj, BitVec.toNat_add_of_and_eq_zero hdisj,
    BitVec.toNat_shiftLeft, BitVec.toNat_setWidth_of_le (by decide), Nat.shiftLeft_eq, Nat.mod_eq_of_lt hbound]

theorem setLenByte_lenByte (len : Length) (i : Nat) : setLenByte len i (lenByte len i) = len := by
  apply BitVec.eq_of_getLsbD_eq
  intro j hj
  rw [setLenByte, BitVec.getLsbD_or, BitVec.getLsbD_and, BitVec.getLsbD_not, getLsbD_byteMask _ hj, getLsbD_byteAt _ _ hj,
    lenByte, BitVec.getLsbD_extractLsb']
  by_cases hin : 248 - 8 * i ≤ j ∧ j < 248 - 8 * i + 8
  · rw [decide_eq_true hin]
    simp [show j - (248 - 8 * i) < 8 by omega, show 248 - 8 * i + (j - (248 - 8 * i)) = j by omega]
  · rw [decide_eq_false hin]
    simp [hj]

/-- The bytes still to be added to, `i` of them, are the top ones: they take the rest of the count and the carry at
weight `2 ^ (256 - 8 * i)`. -/
theorem toNat_lenAddLoop (i : Nat) (hi : i ≤ 32) (len : Length) (v carry : Nat) :
    (lenAddLoop i len v carry).toNat = (len.toNat + (v + carry) * 2 ^ (256 - 8 * i)) % 2 ^ 256 := by
  induction i generalizing len v carry with
  | zero => rw [lenAddLoop, Nat.add_mul_mod_self_right, Nat.mod_eq_of_lt len.isLt]
  | succ i ih =>
    have hself := toNat_setLenByte len (i := i) (by omega) (lenByte len i)
    rw [setLenByte_lenByte] at hself
    rw [lenAddLoop, ih (by omega), toNat_setLenByte len (by omega), BitVec.toNat_ofNat, Nat.mod_mod, hself]
    have hweight : 2 ^ (256 - 8 * i) = 256 * 2 ^ (248 - 8 * i) := by
      rw [← Nat.pow_add 2 8, show 8 + (248 - 8 * i) = 256 - 8 * i by omega]
    rw [hweight, show 256 - 8 * (i + 1) = 248 - 8 * i by omega]
    congr 1
    generalize (len &&& _).toNat = rest, 2 ^ (248 - 8 * i) = u
    have hv := Nat.div_add_mod v 256
    have ht := Nat.div_add_mod ((lenByte len i).toNat + v % 256 + carry) 256
    linear_combination u * hv + u * ht

/-- Settles O21: after the last byte the whole sum stands at weight 1. -/
theorem lengthAdditionByteByByte : Obligations.LengthAdditionByteByByte := by
  intro len n _
  refine ⟨BitVec.eq_of_toNat_eq ?_, toNat_lenAdd len n⟩
  rw [toNat_lenAdd, lenAddBytes, toNat_lenAddLoop 32 (Nat.le_refl _), Nat.add_zero, Nat.sub_self, Nat.pow_zero, Nat.mul_one]

/-! The data byte by byte (R87). -/

theorem byteBit_ushiftRight (b : Byte) (r : Nat) {q : Nat} (hq : q < 8) :
    byteBit (b >>> r) q = (decide (r ≤ q) && byteBit b (q - r)) := by
  rw [byteBit, BitVec.getMsbD_ushiftRight, decide_eq_true hq, Bool.true_and, ← decide_not, decide_eq_decide.2 Nat.not_lt]
  rfl

theorem byteBit_shiftLeft (b : Byte) (r q : Nat) : byteBit (b <<< r) q = byteBit b (q + r) := BitVec.getMsbD_shiftLeft b r

theorem blockBit_orBlockByte (w : Block) {k : Nat} (hk : k < 64) (b : Byte) (p : Nat) :
    blockBit (orBlockByte w k b) p = (blockBit w p || (decide (p / 8 = k) && byteBit b (p % 8))) := by
  rw [blockBit, orBlockByte, blockByte_setBlockByte _ hk]
  split
  case isTrue h => rw [byteBit, BitVec.getMsbD_or, ← h, decide_eq_true rfl, Bool.true_and]; rfl
  case isFalse h => rw [decide_eq_false h, Bool.false_and, Bool.or_false]; rfl

/-- The bits that a source byte, shifted to the cursor's offset in its byte, merges into the block (R87): the first `q` of
them are new, and those after them, up to the end of the byte, are 0. -/
theorem Engine.TailZero.blockBit_merge {e : Engine} (ht : e.TailZero) {b : Byte} {q : Nat} (hq : e.nb.toNat % 8 + q ≤ 8)
    (hb : ∀ k, q ≤ k → e.nb.toNat % 8 + k < 8 → byteBit b k = false) {p : Nat} (hp : p < 512) :
    blockBit (orBlockByte e.w (e.nb.toNat / 8) (b >>> (e.nb.toNat % 8))) p =
      if e.nb.toNat ≤ p ∧ p < e.nb.toNat + q then ((List.range q).map (byteBit b)).getD (p - e.nb.toNat) false
      else blockBit e.w p := by
  have hnb := e.nb.isLt
  rw [blockBit_orBlockByte _ (by omega), byteBit_ushiftRight _ _ (Nat.mod_lt p (by decide))]
  split
  case isTrue hin =>
    rw [ht p hin.1 hp, decide_eq_true (by omega), decide_eq_true (by omega),
      show p % 8 - e.nb.toNat % 8 = p - e.nb.toNat by omega]
    simp [show p - e.nb.toNat < q by omega]
  case isFalse hout =>
    by_cases hbyte : p / 8 = e.nb.toNat / 8 ∧ e.nb.toNat % 8 ≤ p % 8
    · rw [hb (p % 8 - e.nb.toNat % 8) (by omega) (by omega), Bool.and_false, Bool.and_false, Bool.or_false]
    · rw [← Bool.and_assoc, ← Bool.decide_and, decide_eq_false hbyte, Bool.false_and, Bool.or_false]

/-- Bits that stay within the byte of the cursor are absorbed by one merge (R87). -/
theorem Engine.TailZero.absorbBits_inByte {e : Engine} (ht : e.TailZero) {b : Byte} {q : Nat}
    (hq : e.nb.toNat % 8 + q ≤ 8) (hb : ∀ k, q ≤ k → e.nb.toNat % 8 + k < 8 → byteBit b k = false) :
    e.absorbBits ((List.range q).map (byteBit b)) =
      Engine.fillTo { e with w := orBlockByte e.w (e.nb.toNat / 8) (b >>> (e.nb.toNat % 8)) } q := by
  have hnb := e.nb.isLt
  have hlen : ((List.range q).map (byteBit b)).length = q := by simp
  rw [e.absorbBits_frame, Engine.withAccumulator, Engine.fillTo]
  split
  case isTrue hend =>
    have hfull : e.nb.toNat + q = 512 := hend
    obtain ⟨full, hbits, hh, hw, hn⟩ := e.absorbBits_of_full ((List.range q).map (byteBit b)) (by rwa [hlen])
    have hmerge : full = orBlockByte e.w (e.nb.toNat / 8) (b >>> (e.nb.toNat % 8)) := by
      apply block_ext_bits
      intro p hp
      rw [hbits p hp, ht.blockBit_merge hq hb hp]
      by_cases hlow : p < e.nb.toNat
      · rw [if_pos hlow, if_neg (by omega)]
      · rw [if_neg hlow, if_pos (by omega)]
    rw [hh, hw, hn, hmerge]
    rfl
  case isFalse hend =>
    have hne : e.nb.toNat + q ≠ 512 := hend
    have hlt : e.nb.toNat + q < 512 := by omega
    obtain ⟨hh, hn, hw⟩ := e.absorbBits_of_lt ((List.range q).map (byteBit b)) (by rwa [hlen])
    rw [hlen] at hn hw
    have hmerge : (e.absorbBits ((List.range q).map (byteBit b))).w =
        orBlockByte e.w (e.nb.toNat / 8) (b >>> (e.nb.toNat % 8)) := by
      apply block_ext_bits
      intro p hp
      rw [hw p hp, ht.blockBit_merge hq hb hp]
    have hcursor : (e.absorbBits ((List.range q).map (byteBit b))).nb = e.nb + BitVec.ofNat 9 q := by
      apply BitVec.eq_of_toNat_eq
      rw [hn, BitVec.toNat_add, BitVec.toNat_ofNat, Nat.add_mod_mod, Nat.mod_eq_of_lt hlt]
    rw [hh, hmerge, hcursor]

/-- At a byte boundary the byte of the cursor is still 0, so that a merge overwrites it. -/
theorem Engine.TailZero.setBlockByte_eq {e : Engine} (ht : e.TailZero) (h : e.nb.toNat % 8 = 0) (b : Byte) :
    setBlockByte e.w (e.nb.toNat / 8) b = orBlockByte e.w (e.nb.toNat / 8) b := by
  have hnb := e.nb.isLt
  have hzero : blockByte e.w (e.nb.toNat / 8) = 0#8 := by
    apply byte_ext
    intro q hq
    have hbit := ht (8 * (e.nb.toNat / 8) + q) (by omega) (by simp only [Config.blockBits]; omega)
    rw [byteBit_zero, ← hbit, blockBit, Nat.mul_add_mod, Nat.mul_add_div (by decide), Nat.div_eq_of_lt hq,
      Nat.mod_eq_of_lt hq, Nat.add_zero]
  rw [orBlockByte, hzero, BitVec.zero_or]

/-- Bits at a byte boundary, fewer than a byte, are absorbed by writing the byte (R87). -/
theorem Engine.TailZero.absorbBits_aligned {e : Engine} (ht : e.TailZero) (h : e.nb.toNat % 8 = 0) {b : Byte} {q : Nat}
    (hq : q < 8) (hb : ∀ k, q ≤ k → k < 8 → byteBit b k = false) :
    e.absorbBits ((List.range q).map (byteBit b)) =
      { e with w := setBlockByte e.w (e.nb.toNat / 8) b, nb := e.nb + BitVec.ofNat 9 q } := by
  have hnb := e.nb.isLt
  rw [ht.absorbBits_inByte (by omega) fun k h1 h2 => hb k h1 (by omega), h, BitVec.ushiftRight_zero, ← ht.setBlockByte_eq h]
  exact if_neg (by simp only [Config.blockBits]; omega)

/-- The bits of a byte in two parts: its first bits, and the first bits of the byte shifted past them. -/
theorem range_map_byteBit_add (b : Byte) (m n : Nat) : (List.range (m + n)).map (byteBit b) =
    (List.range m).map (byteBit b) ++ (List.range n).map (byteBit (b <<< m)) := by
  rw [List.range_add, List.map_append, List.map_map]
  congr 1
  apply List.map_congr_left
  intro k _
  rw [byteBit_shiftLeft, Nat.add_comm k]
  rfl

/-- The group of at most 8 bits that R87 merges: it stays in the byte of the cursor, or fills that byte and puts the rest
at the top of the next one. -/
theorem Engine.TailZero.absorbPartial_eq {e : Engine} (ht : e.TailZero) {b : Byte} {q : Nat} (hq : q ≤ 8)
    (hb : ∀ k, q ≤ k → k < 8 → byteBit b k = false) :
    e.absorbPartial b q = e.absorbBits ((List.range q).map (byteBit b)) := by
  have hnb := e.nb.isLt
  rw [Engine.absorbPartial]
  split
  case isTrue hlt =>
    rw [ht.absorbBits_inByte (by omega) fun k h1 h2 => hb k h1 (by omega)]
    exact (if_neg (by simp only [Config.blockBits]; omega)).symm
  case isFalse hge =>
    obtain ⟨room, hroom⟩ : ∃ room, room = 8 - e.nb.toNat % 8 := ⟨_, rfl⟩
    obtain ⟨rest, rfl⟩ : ∃ rest, q = room + rest := ⟨q - room, by omega⟩
    have hfill := ht.absorbBits_inByte (b := b) (q := room) (by omega) fun k h1 h2 => by omega
    have halign : (e.absorbBits ((List.range room).map (byteBit b))).nb.toNat % 8 = 0 := by
      rw [toNat_absorbBits_nb, List.length_map, List.length_range]
      omega
    have hrest : ∀ k, rest ≤ k → k < 8 → byteBit (b <<< room) k = false := fun k h1 h2 => by
      rw [byteBit_shiftLeft]
      by_cases h8 : k + room < 8
      · exact hb _ (by omega) h8
      · exact BitVec.getMsbD_of_ge _ _ (by omega)
    rw [range_map_byteBit_add, absorbBits_append, (ht.absorbBits _).absorbBits_aligned halign (by omega) hrest, hfill,
      ← hroom, Nat.add_sub_cancel_left]

/-- A whole byte is the group of 8 bits, which always leaves the byte of the cursor. -/
theorem Engine.absorbByte_eq_absorbPartial (e : Engine) (b : Byte) : e.absorbByte b = e.absorbPartial b 8 := by
  rw [Engine.absorbPartial, if_neg (by omega), show 8 - (8 - e.nb.toNat % 8) = e.nb.toNat % 8 by omega]
  rfl

/-- Settles O22: both forms merge a group of at most 8 bits. -/
theorem byteAtATimeIsBitwise : Obligations.ByteAtATimeIsBitwise := fun e b ht =>
  ⟨(e.absorbByte_eq_absorbPartial b).trans (ht.absorbPartial_eq (Nat.le_refl 8) fun _ h1 h2 => by omega),
    fun _ hq hb => ht.absorbPartial_eq hq.le hb⟩

/-! Chunks of a message (R91, R92). -/

theorem lenAdd_lenAdd (len : Length) (m n : Nat) : lenAdd (lenAdd len m) n = lenAdd len (m + n) := by
  rw [lenAdd, lenAdd, lenAdd, BitVec.ofNat_add, BitVec.add_assoc]

/-- What the accumulator of `e'` holds when the bits `ms` have been appended to `e` (R91). The rest of the engine may
differ. -/
structure Engine.Appended (e : Engine) (ms : List Bool) (e' : Engine) : Prop where
  h : e'.h = (e.absorbBits ms).h
  w : e'.w = (e.absorbBits ms).w
  nb : e'.nb = (e.absorbBits ms).nb
  len : e'.len = lenAdd e.len ms.length
  ph : e'.ph = e.ph

theorem Engine.Appended.nil (e : Engine) : e.Appended [] e where
  h := rfl
  w := rfl
  nb := rfl
  len := (BitVec.add_zero _).symm
  ph := rfl

theorem Engine.Appended.withAccumulator_eq {e e' : Engine} {ms : List Bool} (h : e.Appended ms e') :
    e'.withAccumulator (e.absorbBits ms) = e' := by
  rw [Engine.withAccumulator, ← h.h, ← h.w, ← h.nb]

/-- ABSORB reads the accumulator only, so appending in two parts is appending the whole. -/
theorem Engine.Appended.trans {e e' e'' : Engine} {ms ns : List Bool} (h : e.Appended ms e') (h' : e'.Appended ns e'') :
    e.Appended (ms ++ ns) e'' := by
  have habs : e'.absorbBits ns = e'.withAccumulator (e.absorbBits (ms ++ ns)) := by
    rw [absorbBits_append, ← absorbBits_withAccumulator, h.withAccumulator_eq]
  exact {
    h := by rw [h'.h, habs]; rfl
    w := by rw [h'.w, habs]; rfl
    nb := by rw [h'.nb, habs]; rfl
    len := by rw [h'.len, h.len, lenAdd_lenAdd, List.length_append]
    ph := h'.ph.trans h.ph }

/-- In phase ACCUM an APPEND of at most 64 bits, laid out in DIN as R63 says, appends them. -/
theorem appendChunk_appended {s : State} (hp : s.engine.ph = .accum) {c : List Bool} (hc : c.length ≤ 64) :
    ∃ t, appendChunk c s = .next t ∧ s.engine.Appended c t.engine := by
  refine ⟨_, exec_append_eq (s := s.mapEngine fun e => { e with dinl := leftJustify 64 c }) hp c.length, ?_⟩
  have habs : Engine.absorbBits { s.engine with dinl := leftJustify 64 c } c =
      Engine.withAccumulator { s.engine with dinl := leftJustify 64 c } (s.engine.absorbBits c) :=
    Engine.absorbBits_withAccumulator { s.engine with dinl := leftJustify 64 c } s.engine c
  simp only [State.mapEngine, chunk_leftJustify hc, habs]
  exact ⟨rfl, rfl, rfl, rfl, rfl⟩

/-- In phase ACCUM the APPENDs of a cut complete and append the whole string. -/
theorem appendChunks_appended {s : State} (hp : s.engine.ph = .accum) {cs : List (List Bool)}
    (hcs : ∀ c ∈ cs, c.length ≤ 64) : ∃ t, appendChunks cs s = .next t ∧ s.engine.Appended cs.flatten t.engine := by
  induction cs generalizing s with
  | nil => exact ⟨s, rfl, Engine.Appended.nil _⟩
  | cons c cs ih =>
    obtain ⟨hc, hcs⟩ := List.forall_mem_cons.1 hcs
    obtain ⟨t, ht, hct⟩ := appendChunk_appended hp hc
    obtain ⟨u, hu, hcu⟩ := ih (hct.ph.trans hp) hcs
    exact ⟨u, by rw [appendChunks, ht]; exact hu, hct.trans hcu⟩

/-- Settles O23: what the APPENDs of a cut leave is named by the string alone. -/
theorem chunkInvariance : Obligations.ChunkInvariance := by
  refine ⟨fun s cs hp hcs => ?_, fun s cs ds hp hcs hds hcut => ?_⟩
  · obtain ⟨t, ht, ha⟩ := appendChunks_appended hp hcs
    exact ⟨t, ht, ha.h, ha.w, ha.nb, by rw [ha.len, toNat_lenAdd]⟩
  · obtain ⟨t, ht, ha⟩ := appendChunks_appended hp hcs
    obtain ⟨u, hu, hb⟩ := appendChunks_appended hp hds
    rw [← hcut] at hb
    exact ⟨t, u, ht, hu, ha.h.trans hb.h.symm, ha.w.trans hb.w.symm, ha.nb.trans hb.nb.symm, ha.len.trans hb.len.symm⟩

/-- The accumulator that reset and INIT leave: empty, in phase ACCUM (R31, R119). -/
def Engine.FreshAccumulator (e : Engine) : Prop :=
  e.h = zeroWords ∧ e.w = zeroBlock ∧ e.nb = 0 ∧ e.len = 0 ∧ e.ph = .accum

theorem freshAccumulator_of_reset_or_init {t : State} (h : t = State.reset ∨ ∃ s, exec .init s = .next t) :
    t.engine.FreshAccumulator := by
  obtain rfl | ⟨s, hs⟩ := h
  · exact ⟨rfl, rfl, rfl, rfl, rfl⟩
  · cases hs
    exact ⟨rfl, rfl, rfl, rfl, rfl⟩

/-- Settles O24: the fresh accumulator absorbs the whole message, whose last bits stand at the top of W. -/
theorem accumulatorAfterMessage : Obligations.AccumulatorAfterMessage := by
  intro t cs hfresh hcs
  obtain ⟨hh, hw, hn, hl, hp⟩ := freshAccumulator_of_reset_or_init hfresh
  obtain ⟨u, hu, ha⟩ := appendChunks_appended hp hcs
  obtain ⟨hchain, hcursor, hblock⟩ := absorb_message t.engine hh hw hn cs.flatten
  refine ⟨u, hu, ha.h.trans hchain, by rw [ha.nb, hcursor], fun p hlt => ?_, ?_, ha.ph.trans hp⟩
  · rw [ha.w, hblock, blockBit_messageBlock _ _ hlt]
    split
    case isTrue => rfl
    case isFalse => rw [List.getD_eq_default _ _ (by omega)]
  · rw [ha.len, toNat_lenAdd, hl]
    simp

end Sys2Proof.Machine

/-! PROOFS. The statements about COMPRESS (42_compression.md): each word of RHO, of a key step and of a state step, and the
ten rounds as one chain of keys and states. -/

namespace Sys2Proof.Machine

/-! RHO (R95). -/

/-- Subtraction in `Fin 8` is R95's index `(i - j) mod 8` on naturals. -/
theorem getElem_fin_sub (v : Words) (i j : Fin 8) : v[i - j] = v[(i.val + 8 - j.val) % 8]'(Nat.mod_lt _ (by decide)) := by
  have hsub : (i - j).val = (i.val + 8 - j.val) % 8 := by rw [Fin.val_sub]; omega
  simp only [Fin.getElem_fin, hsub]

/-- Word `i` of RHO: the XOR over j of byte j of word `(i - j) mod 8`, substituted by table j. -/
theorem getElem_rho (v : Words) (i : Fin 8) :
    (rho v)[i] = xor8 fun j => cTable j (byteOf j (v[(i.val + 8 - j.val) % 8]'(Nat.mod_lt _ (by decide)))) := by
  simp only [rho, Fin.getElem_fin, Vector.getElem_ofFn, ← getElem_fin_sub]

/-- Settles O27: the eight terms of `xor8`. The index of the first is `(i + 8) mod 8`; those of word 0 are numerals. -/
theorem rhoWrittenOut : Obligations.RhoWrittenOut := by
  refine fun v => ⟨fun i hi => ?_, getElem_rho v 0⟩
  have h := getElem_rho v ⟨i, hi⟩
  simp only [xor8, Fin.val_zero, Nat.sub_zero, Nat.add_mod_right] at h
  exact h

/-! The key step, the state step and the round (R97, R98). -/

theorem getElem_keyStep_zero (k : Words) (r : Nat) : (keyStep k r)[0] = (rho k)[0] ^^^ rc r := by
  simp [keyStep]

theorem getElem_keyStep_of_ne_zero (k : Words) (r : Nat) {i : Fin 8} (hi : i ≠ 0) : (keyStep k r)[i] = (rho k)[i] := by
  simp [keyStep, hi]

theorem getElem_stateStep (s k : Words) (i : Fin 8) : (stateStep s k)[i] = (rho s)[i] ^^^ k[i] := by
  simp [stateStep]

/-- Settles O28: the words of the two steps, and the fields of a round. -/
theorem roundConstantOnlyInKeyWordZero : Obligations.RoundConstantOnlyInKeyWordZero :=
  ⟨fun k r => ⟨getElem_keyStep_zero k r, fun _ hi => getElem_keyStep_of_ne_zero k r hi⟩, getElem_stateStep,
    fun _ => ⟨rfl, rfl, rfl, rfl⟩⟩

/-! COMPRESS (R94, R96, R99). -/

theorem byteOf_blockWord (w : Block) (i : Nat) {k : Nat} (hk : k < 8) :
    byteOf k (blockWord w i) = blockByte w (8 * i + k) := byteOf_be64 _ ⟨k, hk⟩

theorem getElem_whiten_b (w : Block) (h : Words) (i : Fin 8) : (whiten w h).b[i] = blockWord w i := by
  simp [whiten]

theorem getElem_whiten_s (w : Block) (h : Words) (i : Fin 8) : (whiten w h).s[i] = blockWord w i ^^^ h[i] := by
  simp [whiten]

/-- `cipherRounds` runs its first round first; its last round is one more round on what the others leave. -/
theorem cipherRounds_succ (n : Nat) (c : CompressRegs) : cipherRounds (n + 1) c = cipherRound (cipherRounds n c) := by
  induction n generalizing c with
  | zero => rfl
  | succ n ih => exact ih (cipherRound c)

/-- The rounds count themselves. -/
theorem cipherRounds_r (n : Nat) (c : CompressRegs) : (cipherRounds n c).r = c.r + n := by
  induction n with
  | zero => rfl
  | succ n ih => rw [cipherRounds_succ, cipherRound, ih, Nat.add_assoc]

/-- No round writes the parsed block. -/
theorem cipherRounds_b (n : Nat) (c : CompressRegs) : (cipherRounds n c).b = c.b := by
  induction n with
  | zero => rfl
  | succ n ih => rw [cipherRounds_succ, cipherRound, ih]

/-- The key after `n` rounds of COMPRESS. -/
def roundKey (w : Block) (h : Words) (n : Nat) : Words := (cipherRounds n (whiten w h)).k

/-- The cipher state after `n` rounds of COMPRESS. -/
def roundState (w : Block) (h : Words) (n : Nat) : Words := (cipherRounds n (whiten w h)).s

theorem roundKey_succ (w : Block) (h : Words) (n : Nat) : roundKey w h (n + 1) = keyStep (roundKey w h n) (n + 1) := by
  have hr : (cipherRounds n (whiten w h)).r = n := (cipherRounds_r n _).trans (Nat.zero_add n)
  rw [roundKey, cipherRounds_succ, cipherRound, hr, roundKey]

theorem roundState_succ (w : Block) (h : Words) (n : Nat) :
    roundState w h (n + 1) = stateStep (roundState w h n) (roundKey w h (n + 1)) := by
  rw [roundState, roundKey, cipherRounds_succ]
  rfl

/-- The feed-forward of the state after round 10 (R99). -/
theorem getElem_compress (w : Block) (h : Words) (i : Fin 8) :
    (compress w h)[i] = h[i] ^^^ (roundState w h 10)[i] ^^^ blockWord w i := by
  rw [← getElem_whiten_b w h i, ← cipherRounds_b 10 (whiten w h)]
  simp only [compress, feedForward, roundState, Config.rounds, Fin.getElem_fin, Vector.getElem_ofFn]

/-- Settles O29: the chains are the keys and states that the rounds of COMPRESS leave. -/
theorem compressIsTenRoundsAndFeedForward : Obligations.CompressIsTenRoundsAndFeedForward := by
  refine fun w h => ⟨⟨rfl, rfl, fun i => ?_⟩, fun _ => rfl, roundKey w h, roundState w h, rfl, getElem_whiten_s w h,
    fun n _ => ⟨roundKey_succ w h n, roundState_succ w h n⟩, getElem_compress w h⟩
  exact ⟨getElem_whiten_b w h i, getElem_whiten_s w h i, fun _ hk => byteOf_blockWord w i hk⟩

end Sys2Proof.Machine

/-! PROOFS. The statements about the finalizer (43_finalizer.md): the padded blocks it compresses, its state machine, the
digest of a message, and that DIGEST and DV have no other writer. -/

namespace Sys2Proof.Machine

/-! The padding (R107 to R110). -/

/-- The pad bit's byte is below byte 32 exactly when the length field still fits the block (R107). -/
theorem Engine.lt_padCursor_iff (e : Engine) : 32 < e.padCursor ↔ 256 ≤ e.nb.toNat := by
  unfold Engine.padCursor
  omega

/-- The padded block: the message bits, the pad bit, zeros. -/
theorem Engine.TailZero.blockBit_padBit {e : Engine} (ht : e.TailZero) {p : Nat} (hp : p < 512) :
    blockBit e.padBit.w p = if p < e.nb.toNat then blockBit e.w p else decide (p = e.nb.toNat) := by
  rw [Engine.padBit_w, blockBit_setBlockBit _ e.nb.isLt]
  by_cases heq : p = e.nb.toNat
  · rw [if_pos heq, if_neg (by omega), decide_eq_true heq]
  · rw [if_neg heq]
    split
    case isTrue => rfl
    case isFalse hge => rw [decide_eq_false heq, ht p (by omega) hp]

/-- The block is 0 after the pad bit already, so the zero-fill from the byte cursor writes nothing new (R30 b). -/
theorem Engine.TailZero.zeroBytes_padBit {e : Engine} (ht : e.TailZero) (hi : Nat) :
    zeroBytes e.padBit.w e.padCursor hi = e.padBit.w := by
  refine block_ext_bits fun p hp => ?_
  rw [blockBit_zeroBytes _ _ _ hp]
  split
  case isTrue hfill =>
    unfold Engine.padCursor at hfill
    rw [ht.blockBit_padBit hp, if_neg (by omega), decide_eq_false (by omega)]
  case isFalse => rfl

theorem zeroBytes_zeroBlock (lo hi : Nat) : zeroBytes zeroBlock lo hi = zeroBlock := by
  refine block_ext_bits fun p hp => ?_
  rw [blockBit_zeroBytes _ _ _ hp, blockBit_zeroBlock, ite_self]

/-- With the cursor below 256 one block holds the padded message bits and the length (R109, R110). -/
theorem Engine.TailZero.finalHash_of_lt {e : Engine} (ht : e.TailZero) (hlt : e.nb.toNat < 256) :
    e.finalHash = compress (withLength e.padBit.w e.len) e.h := by
  have hcur : ¬ 32 < e.padCursor := by rw [e.lt_padCursor_iff]; omega
  rw [Engine.finalHash, Engine.filled, if_neg hcur, Engine.fillToLength_w, ht.zeroBytes_padBit]
  rfl

/-- With the cursor at 256 or above the padded block is compressed first, and the length stands in an empty one (R108). -/
theorem Engine.TailZero.finalHash_of_ge {e : Engine} (ht : e.TailZero) (hge : 256 ≤ e.nb.toNat) :
    e.finalHash = compress (withLength zeroBlock e.len) (compress e.padBit.w e.h) := by
  rw [Engine.finalHash, Engine.filled, if_pos (e.lt_padCursor_iff.2 hge), Engine.fillToLength_w, Engine.spill_w,
    zeroBytes_zeroBlock, Engine.fillToLength_h, Engine.spill_h, ht.zeroBytes_padBit]
  rfl

/-! FINALIZE (R105 to R113). -/

/-- FINALIZE in phase ACCUM completes, and writes H, W, NB, PH, DIGEST and DV only. -/
theorem exec_final_eq {s : State} (hp : s.engine.ph = .accum) :
    exec .final s = .next { s with engine := { s.engine with
      h := s.engine.finalHash, w := zeroBlock, nb := 0, ph := .done, digest := serWords s.engine.finalHash,
      dv := true } } := by
  rw [exec_eq, State.mapEngine, commandEffect, s.engine.finalize_frame hp]

/-- Settles O17: the final HashState is by cases of the cursor, each compressed block bit by bit. -/
theorem finalizePadsAndLatchesDigest : Obligations.FinalizePadsAndLatchesDigest := by
  intro s hp ht
  refine ⟨_, _, exec_final_eq hp, fun i _ hk => blockByte_serWords _ i hk, fun hlt => ?_, fun hge => ?_⟩
  · refine ⟨_, fun p hp512 => ?_, ht.finalHash_of_lt hlt⟩
    rw [blockBit_withLength _ _ hp512, ht.blockBit_padBit hp512]
    by_cases hmsg : p < s.engine.nb.toNat
    · rw [if_pos hmsg, if_pos hmsg, if_pos (by omega)]
    · by_cases hpad : p = s.engine.nb.toNat
      · rw [if_neg hmsg, if_neg hmsg, if_pos hpad, decide_eq_true hpad, if_pos (by omega)]
      · rw [if_neg hmsg, if_neg hmsg, if_neg hpad, decide_eq_false hpad]
  · refine ⟨_, _, fun p hp512 => ht.blockBit_padBit hp512, fun p hp512 => ?_, ht.finalHash_of_ge hge⟩
    rw [blockBit_withLength _ _ hp512, blockBit_zeroBlock]

/-! The state machine (R106, R115). -/

/-- F_PAD goes to F_SPILL or to F_FILL by the byte cursor, and overwrites FC. -/
theorem FinRegs.start_step (fc : Nat) (e : Engine) : (FinRegs.start fc e).step =
    ⟨if 32 < e.padCursor then .spill else .fill, e.padCursor, e.padBit⟩ := rfl

/-- Settles O18: the path by F_SPILL takes all six steps, the path without it ends after five. -/
theorem finalizerMachineIsFinalize : Obligations.FinalizerMachineIsFinalize := by
  intro e fc hp
  rw [FinRegs.run, FinRegs.start_step, e.finalize_of_accum hp, Engine.filled]
  split
  · exact ⟨rfl, rfl⟩
  · exact ⟨rfl, rfl⟩

/-- Settles O19: F_LAST is on both paths, F_SPILL only on that of a cursor of 256 or above. -/
theorem oneOrTwoFinalCompressions : Obligations.OneOrTwoFinalCompressions := by
  intro e fc
  rw [FinRegs.runCompressions, FinRegs.start_step]
  by_cases hge : 256 ≤ e.nb.toNat
  · rw [if_pos (e.lt_padCursor_iff.2 hge), if_neg (by omega)]
    rfl
  · rw [if_neg (mt e.lt_padCursor_iff.1 hge), if_pos (by omega)]
    rfl

/-! The digest (R116, R117). -/

/-- Settles O25: INIT leaves the empty accumulator, which holds the message after its APPENDs; FINALIZE pads it. -/
theorem digestOfMessage : Obligations.DigestOfMessage := by
  intro s cs hcs _
  have hinit := exec_eq .init s
  obtain ⟨hh, hw, hn, hl, hp⟩ := freshAccumulator_of_reset_or_init (.inr ⟨s, hinit⟩)
  obtain ⟨u, hu, ha⟩ := appendChunks_appended hp hcs
  obtain ⟨hchain, hcursor, hblock⟩ := absorb_message _ hh hw hn cs.flatten
  have hlen : u.engine.len = BitVec.ofNat 256 cs.flatten.length := by
    rw [ha.len, hl, lenAdd]
    exact BitVec.zero_add _
  exact ⟨_, u, _, hinit, hu, exec_final_eq (ha.ph.trans hp),
    finalHash_message u.engine cs.flatten (ha.h.trans hchain) (by rw [ha.nb, hcursor]) (ha.w.trans hblock) hlen⟩

/-- Settles O47: INIT and APPEND, the other commands that write a message register, keep DIGEST and DV. -/
theorem digestChangesOnlyAtFinalize : Obligations.DigestChangesOnlyAtFinalize := by
  intro s t h hne
  have keep : ¬ (t.engine.digest = s.engine.digest ∧ t.engine.dv = s.engine.dv) := fun ⟨hd, hv⟩ =>
    hne.elim (absurd hd) (absurd hv)
  obtain hs | ⟨hm, -⟩ | ⟨-, -, ht⟩ | ⟨n, -, -, hp, ht⟩ | ⟨he, hd, hp, ht⟩ := step_messageRegs_cases h
  · exact absurd ⟨hs.digest, hs.dv⟩ keep
  · exact .inl hm
  · exact absurd (by rw [ht]; exact ⟨rfl, rfl⟩) keep
  · exact absurd (by rw [ht, s.engine.append_frame n hp]; exact ⟨rfl, rfl⟩) keep
  · exact .inr ⟨he, hd, hp, by rw [ht, s.engine.finalize_frame hp]; rfl⟩

end Sys2Proof.Machine

/-! PROOFS. The statements about control (44_control.md): the host's reads and writes of each register, a CMD write that
races with a pending command, the engine step and its commands NOP and INIT, and the digest of the empty message. -/

namespace Sys2Proof.Machine

/-! Reads of the register window (R35, R125 to R128). -/

theorem regAt_digest {off : Nat} (hlo : 0x040 ≤ off) (hhi : off < 0x080) : regAt off = .digest ((off - 0x040) / 4) := by
  unfold regAt
  rw [if_neg (by omega), if_neg (by omega), if_neg (by omega), if_neg (by omega), if_pos ⟨hlo, hhi⟩]

theorem regAt_reserved {off : Nat} (h : (0x010 ≤ off ∧ off < 0x040) ∨ 0x080 ≤ off) : regAt off = .reserved := by
  unfold regAt
  rw [if_neg (by omega), if_neg (by omega), if_neg (by omega), if_neg (by omega), if_neg (by omega)]

theorem Engine.readAt_of_aligned (e : Engine) {off : Nat} (h : off % 4 = 0) :
    e.readAt off 4 = e.readReg (regAt off) := if_pos ⟨rfl, h⟩

/-- The read of a DIGEST register gives the four bytes of DIGEST from its offset on, first byte first (R127). -/
theorem Engine.readAt_digest (e : Engine) {off : Nat} (hlo : 0x040 ≤ off) (hhi : off < 0x080) (h : off % 4 = 0) :
    e.readAt off 4 = blockByte e.digest (off - 0x40) ++ blockByte e.digest (off - 0x40 + 1) ++
      blockByte e.digest (off - 0x40 + 2) ++ blockByte e.digest (off - 0x40 + 3) := by
  rw [e.readAt_of_aligned h, regAt_digest hlo hhi, Engine.readReg, digestReg,
    show 4 * ((off - 0x040) / 4) = off - 0x40 by omega]

/-- Settles O30: the value is that of the register at the offset, and the step is the read's. -/
theorem registerReads : Obligations.RegisterReads := by
  intro s k m rest off hoff halign ha
  refine ⟨_, step_of_read_offset ha hoff, ?cmd, ?status, ?dinHi, ?dinLo, fun ⟨hlo, hhi⟩ => ?digest, fun hres => ?reserved⟩
  case cmd => rintro rfl; rfl
  case status => rintro rfl; exact s.engine.status_bits
  case dinHi => rintro rfl; rfl
  case dinLo => rintro rfl; rfl
  case digest => exact s.engine.readAt_digest hlo hhi halign
  case reserved => rw [s.engine.readAt_of_aligned halign, regAt_reserved hres]; rfl

/-! Writes of the register window (R120 to R123, R129). -/

/-- A write of a register replaces the engine by what the write makes of it, and takes the access off its program. -/
theorem step_of_write_eq {s : State} {k : Nat} {m : Master} {rest : List HostOp} {off width : Nat} {v : Word32}
    {e : Engine} (h : s.Accesses k m (.write (s.engineBase + off) width v) rest) (hoff : off < 0x100)
    (he : s.engine.writeAt off width v = e) :
    step s = .next (State.setMaster { s.popTurn with engine := e } k ⟨rest, m.reads⟩) := by
  rw [step_of_write_offset h hoff, ← he]
  rfl

/-- With BUSY = 1 a write of CMD is dropped with ERR_OVR (R123, R140). -/
theorem Engine.writeAt_cmd_of_busy {e : Engine} (hb : e.busy = true) (w : Word32) :
    e.writeAt 0x000 4 w = e.raise .ovr := by
  rw [show e.writeAt 0x000 4 w = e.writeCmd w from rfl, Engine.writeCmd, if_pos hb]

theorem Engine.writeAt_dinHi (e : Engine) (v : Word32) :
    e.writeAt 0x008 4 v = { e with din := v ++ e.din.extractLsb' 0 32 } := rfl

theorem Engine.writeAt_dinLo (e : Engine) (v : Word32) :
    e.writeAt 0x00C 4 v = { e with din := e.din.extractLsb' 32 32 ++ v } := rfl

theorem Engine.writeAt_status (e : Engine) (v : Word32) : e.writeAt 0x004 4 v = e.clearFlags v := rfl

/-- A flag is cleared exactly when its bit of the written value is 1 (R122). -/
theorem Engine.clearFlags_eq_ite (e : Engine) (v : Word32) : e.clearFlags v = { e with
    errOp := if v.getLsbD 4 then false else e.errOp
    errCnt := if v.getLsbD 5 then false else e.errCnt
    errSeq := if v.getLsbD 6 then false else e.errSeq
    errOvr := if v.getLsbD 7 then false else e.errOvr } := by
  have hclear (flag bit : Bool) : (flag && !bit) = if bit then false else flag := by cases bit <;> simp
  simp only [Engine.clearFlags, hclear, ErrCode.bit]

/-- The registers that a write can change stand below offset 0x010 (R36, R129). -/
theorem Engine.writeAt_of_ge (e : Engine) {off : Nat} (h : 0x010 ≤ off) (width : Nat) (v : Word32) :
    e.writeAt off width v = e := by
  obtain hsame | ⟨-, ho, -⟩ | ⟨-, ho, -⟩ | ⟨-, ho, -⟩ | ⟨-, ho, -⟩ := e.writeAt_cases off width v
  · exact hsame
  all_goals omega

/-- Settles O31, by the effect of the write on each half. -/
theorem dinHalvesAreWritten : Obligations.DinHalvesAreWritten :=
  ⟨fun s _ _ _ v ha => step_of_write_eq ha (by decide) (s.engine.writeAt_dinHi v),
    fun s _ _ _ v ha => step_of_write_eq ha (by decide) (s.engine.writeAt_dinLo v)⟩

/-- Settles O32, flag by flag. -/
theorem statusWriteClearsFlags : Obligations.StatusWriteClearsFlags := fun s _ _ _ v ha =>
  step_of_write_eq ha (by decide) ((s.engine.writeAt_status v).trans (s.engine.clearFlags_eq_ite v))

/-- Settles O33, by the two cases of BUSY: the latch and the overrun. -/
theorem cmdWriteAcceptsOrDrops : Obligations.CmdWriteAcceptsOrDrops := fun _ _ _ _ w ha =>
  ⟨fun hidle => step_of_write_eq ha (by decide) (writeCmd_idle hidle w),
    fun hbusy => step_of_write_eq ha (by decide) (Engine.writeAt_cmd_of_busy hbusy w)⟩

/-- Settles O34: only offsets below 0x010 can be written. -/
theorem readOnlyWritesAreIgnored : Obligations.ReadOnlyWritesAreIgnored := fun s _ _ _ _ v hlo hhi _ ha =>
  step_of_write_eq ha hhi (s.engine.writeAt_of_ge hlo 4 v)

/-! A CMD write beside a pending command (R123, R164). -/

/-- Settles O40: in both orders the engine step lets BUSY fall and keeps CMDL, DIN and ERR_OVR, so its place decides
whether the write finds BUSY = 1. -/
theorem cmdWriteRacesWithCompletion : Obligations.CmdWriteRacesWithCompletion := by
  intro s k m rest w ts hbusy hm hprog
  refine ⟨?dropped, ?accepted⟩
  case dropped =>
    obtain ⟨hidle, hcmdl, -, -, hovr⟩ := (s.engine.raise .ovr).stepped_frame
    have hwrite := step_of_write_eq (s := { s with turns := .host k :: .engine :: ts }) ⟨rfl, hm, hprog⟩ (by decide)
      (Engine.writeAt_cmd_of_busy hbusy w)
    exact ⟨_, run_two hwrite (step_of_engineMoves ⟨rfl, hbusy⟩), hidle, hovr, hcmdl⟩
  case accepted =>
    obtain ⟨hidle, -, -, hdin, hovr⟩ := s.engine.stepped_frame
    have hstep := step_of_engineMoves (s := { s with turns := .engine :: .host k :: ts }) ⟨rfl, hbusy⟩
    exact ⟨_, run_two hstep (step_of_write_eq ⟨rfl, hm, hprog⟩ (by decide) (writeCmd_idle hidle w)),
      rfl, hovr, rfl, hdin⟩

/-! The engine step (R124). -/

theorem step_of_engine_idle {s : State} (hm : s.mover = some .engine) (hb : s.engine.busy = false) :
    step s = .next s.popTurn := by
  simp [step_of_mover hm, runTurn, engineTurn, hb]

/-- The enabled engine step of a word that decodes to a command. -/
theorem step_of_command {s : State} {i : Instr} (he : s.EngineMoves) (hd : decode s.engine.cmdl = .command i) :
    step s = thenNext (exec i s.popTurn) State.complete := by
  rw [step_of_engineMoves he, State.mapEngine, State.popTurn_engine, Engine.stepped_of_command hd, exec_eq]
  rfl

/-- Settles O5, by the result of decoding the latched word. -/
theorem engineStepRunsDecodedCommand : Obligations.EngineStepRunsDecodedCommand := by
  refine ⟨fun s he => ⟨fun i hd => step_of_command he hd, fun hd => ?illegalOp, fun hd => ?illegalCnt⟩,
    fun s hm hb => ⟨_, step_of_engine_idle hm hb, rfl⟩⟩
  case illegalOp =>
    rw [step_of_engineMoves he, State.mapEngine, State.popTurn_engine, Engine.stepped_of_illegalOp hd]
    rfl
  case illegalCnt =>
    rw [step_of_engineMoves he, State.mapEngine, State.popTurn_engine, Engine.stepped_of_illegalCnt hd]
    rfl

theorem tableWord_eq (w : Nat) : tableWord 32 w = BitVec.ofNat 32 w := by
  apply BitVec.eq_of_toNat_eq
  rw [tableWord, BitVec.toNat_ofNat, BitVec.toNat_ofNat, Nat.mod_mod]

theorem decode_of_decodeTableWord {n w : Nat} {i : Instr} (h : decodeTableWord n w = some i) :
    decode (tableWord n w) = .command i := by
  rw [decodeTableWord] at h
  cases hd : decode (tableWord n w) with
  | illegalOp => rw [hd] at h; exact nomatch h
  | illegalCnt => rw [hd] at h; exact nomatch h
  | command j => rw [hd] at h; exact congrArg Decoded.command (Option.some.inj h)

/-- Settles O6: placing the word leaves a state in which the engine moves, so the step is that of the decoded command. -/
theorem issuedWordRunsNext : Obligations.IssuedWordRunsNext := by
  intro s w i h
  rw [← tableWord_eq]
  exact step_of_command (s := s.withFetchWord 32 w) ⟨rfl, rfl⟩ (decode_of_decodeTableWord h)

/-- Settles O12: the word 0 decodes to NOP, which completes as it is. -/
theorem nopChangesNothing : Obligations.NopChangesNothing := by
  refine ⟨fun s => exec_eq .nop s, fun s he hw => ?_⟩
  obtain ⟨hnop, -⟩ := sampleWordsDecode
  exact step_of_command he (hw ▸ hnop)

/-- Settles O13: the record update is INIT's effect, and the reset state has those values already. -/
theorem initStartsFreshMessage : Obligations.InitStartsFreshMessage := ⟨fun s => exec_eq .init s, exec_eq .init State.reset⟩

/-! The digest of the empty message (R134). -/

/-- V-F0: the HashState that FINALIZE of the reset accumulator leaves. -/
theorem finalHash_reset : Engine.reset.finalHash = #v[0x19FA61D75522A466, 0x9B44E39C1D2E1726, 0xC530232130D407F8,
    0x9AFEE0964997F7A7, 0x3E83BE698B288FEB, 0xCF88E3E03C4F0757, 0xEA8964E59B63D937, 0x08B138CC42A66EB3] := by
  decide +kernel

/-- The accumulator of reset holds the empty message, so FINALIZE gives its digest (R116). -/
theorem messageDigest_nil : messageDigest [] = serWords Engine.reset.finalHash := by
  have hblock : Engine.reset.w = messageBlock [] 0 := block_ext_bits fun p hp => by
    rw [blockBit_messageBlock _ _ hp]
    exact blockBit_zeroBlock p
  exact (finalHash_message Engine.reset [] rfl rfl hblock rfl).symm

/-- FINALIZE sees the accumulator only, so from a fresh one it gives what it gives after reset. -/
theorem exec_final_of_fresh {t : State} (h : t.engine.FreshAccumulator) :
    ∃ u, exec .final t = .next u ∧ u.engine.digest = serWords Engine.reset.finalHash := by
  obtain ⟨hh, hw, hn, hl, hp⟩ := h
  exact ⟨_, exec_final_eq hp, congrArg serWords (Engine.finalHash_congr hh hw hn hl)⟩

/-- Settles O20: the accumulator is fresh after INIT and after reset, and FINALIZE of it evaluates to V-F0. -/
theorem emptyMessageDigest : Obligations.EmptyMessageDigest := by
  unfold Obligations.EmptyMessageDigest
  rw [← finalHash_reset]
  refine ⟨fun s => ?_, exec_final_of_fresh (freshAccumulator_of_reset_or_init (.inl rfl)), messageDigest_nil⟩
  have hinit := exec_eq .init s
  obtain ⟨u, hfinal, hdigest⟩ := exec_final_of_fresh (freshAccumulator_of_reset_or_init (.inr ⟨s, hinit⟩))
  exact ⟨_, u, hinit, hfinal, hdigest⟩

end Sys2Proof.Machine

/-! PROOFS. The statements about errors (60_exceptions.md): what a rejection changes, which error is reported, what raises a
flag and what clears it, and that no step with all accesses in the window stops. -/

namespace Sys2Proof

/-! The words that the decoder rejects (R136, R137). -/

/-- A reserved opcode, a nonzero RSV, or a nonzero CNT outside APPEND is rejected by the first two checks of R60. -/
theorem decode_eq_illegalOp {w : Word32}
    (h : 0x04 ≤ (opField w).toNat ∨ rsvField w ≠ 0 ∨ (opField w ≠ 0x02 ∧ cntField w ≠ 0)) : decode w = .illegalOp := by
  unfold decode
  obtain hop | hrsv | hcnt := h
  · rw [if_pos (.inl hop)]
  · rw [if_pos (.inr hrsv)]
  · rw [if_pos hcnt, ite_self]

/-- A count above 64 is rejected only in a word that is an APPEND with RSV = 0. -/
theorem decode_eq_illegalCnt {w : Word32} (hrsv : rsvField w = 0) (hop : opField w = 0x02)
    (hcnt : 64 < (cntField w).toNat) : decode w = .illegalCnt := by
  unfold decode
  rw [hrsv, hop, if_neg (by decide), if_neg fun h => h.1 rfl, if_pos ⟨rfl, hcnt⟩]

end Sys2Proof

namespace Sys2Proof.Machine

/-! What a rejection leaves (R138). -/

theorem Engine.complete_flag (e : Engine) (c : ErrCode) : e.complete.flag c = e.flag c := by cases c <;> rfl

theorem Engine.rejected_flag (e : Engine) (c d : ErrCode) : (e.rejected c).flag d = (decide (c = d) || e.flag d) := by
  rw [Engine.rejected, Engine.complete_flag, Engine.raise_flag]

theorem step_of_rejected {s : State} {c : ErrCode} (he : s.EngineMoves) (h : s.engine.stepped = s.engine.rejected c) :
    step s = .next { s.popTurn with engine := s.engine.rejected c } := by
  rw [step_of_engineMoves he, State.mapEngine, State.popTurn_engine, h]

/-- APPEND and FINALIZE are sequence errors in phase DONE (R139). -/
theorem commandEffect_of_done {e : Engine} {i : Instr} (hi : (∃ n, i = .append n) ∨ i = .final) (hp : e.ph = .done) :
    commandEffect i e = e.raise .seq := by
  obtain ⟨n, rfl⟩ | rfl := hi
  · exact e.append_of_done n hp
  · exact e.finalize_of_done hp

theorem Engine.stepped_of_done {e : Engine} (hp : e.ph = .done)
    (hd : (∃ n, decode e.cmdl = .command (.append n)) ∨ decode e.cmdl = .command .final) :
    e.stepped = e.rejected .seq := by
  obtain ⟨n, hd⟩ | hd := hd
  · rw [Engine.stepped_of_command hd, commandEffect_of_done (.inl ⟨n, rfl⟩) hp, Engine.rejected]
  · rw [Engine.stepped_of_command hd, commandEffect_of_done (.inr rfl) hp, Engine.rejected]

/-- Settles O7: each of the three field conditions makes the decoder answer ILLEGAL_OP. -/
theorem illegalOpRejection : Obligations.IllegalOpRejection := by
  intro s he h
  refine step_of_rejected he (Engine.stepped_of_illegalOp (decode_eq_illegalOp ?_))
  obtain hop | hrsv | ⟨hop, hcnt⟩ := h
  · exact .inl hop
  · exact .inr (.inl hrsv)
  · refine .inr (.inr ⟨fun h2 => ?_, hcnt⟩)
    rw [← opField, h2] at hop
    exact absurd hop (by decide)

/-- Settles O8: such a word passes the checks for ERR_OP and fails the one for the count. -/
theorem illegalCountRejection : Obligations.IllegalCountRejection := fun _ he hop hrsv hcnt =>
  step_of_rejected he (Engine.stepped_of_illegalCnt (decode_eq_illegalCnt hrsv hop hcnt))

/-- Settles O9: both commands raise the sequence error, at the command and at its engine step. -/
theorem sequenceErrorWhenDone : Obligations.SequenceErrorWhenDone := by
  refine ⟨fun s i _ hi hp => ?_, fun s he hp hd => step_of_rejected he (Engine.stepped_of_done hp hd)⟩
  rw [exec_eq, State.mapEngine, commandEffect_of_done hi hp]
  rfl

/-- Settles O10: the error is that of the decoder or the sequence error, and raising it sets its own flag only. -/
theorem rejectionIsPrecise : Obligations.RejectionIsPrecise := by
  intro s he h
  obtain ⟨c, hc⟩ : ∃ c, s.engine.stepped = s.engine.rejected c := by
    obtain hw | ⟨hp, hd⟩ := h
    · cases hd : decode s.engine.cmdl with
      | illegalOp => exact ⟨.op, Engine.stepped_of_illegalOp hd⟩
      | illegalCnt => exact ⟨.cnt, Engine.stepped_of_illegalCnt hd⟩
      | command i => exact absurd hd (hw i)
    · exact ⟨.seq, Engine.stepped_of_done hp hd⟩
  refine ⟨c, step_of_rejected he hc, ?_, fun d hne => ?_⟩
  · simp [Engine.rejected_flag]
  · simp [Engine.rejected_flag, hne.symm]

/-- Settles O11: the CMD write meets no decoder, the decoder checks the fields before the count, and it answers a command
before the phase is looked at. -/
theorem oneErrorByPriority : Obligations.OneErrorByPriority :=
  ⟨fun s k m rest w ha => (cmdWriteAcceptsOrDrops s k m rest w ha).2,
    fun _ he h => step_of_rejected he (Engine.stepped_of_illegalOp (decode_eq_illegalOp h)),
    fun s he hrsv hop hcnt => illegalCountRejection s he hop hrsv hcnt,
    sequenceErrorWhenDone.2⟩

/-! What each operation does to a flag. -/

theorem Engine.reset_flag (c : ErrCode) : Engine.reset.flag c = false := by cases c <;> rfl

theorem Engine.clearFlags_flag (e : Engine) (v : Word32) (c : ErrCode) :
    (e.clearFlags v).flag c = (e.flag c && !v.getLsbD c.bit) := by cases c <;> rfl

theorem Engine.din_flag (e : Engine) (d : Word64) (c : ErrCode) : Engine.flag { e with din := d } c = e.flag c := by
  cases c <;> rfl

theorem Engine.raise_flag_cases (e : Engine) (c d : ErrCode) :
    (e.raise d).flag c = e.flag c ∨ (c = d ∧ (e.raise d).flag c = true) := by
  rw [Engine.raise_flag]
  by_cases hdc : d = c
  · exact .inr ⟨hdc.symm, by simp [hdc]⟩
  · exact .inl (by simp [hdc])

/-- A CMD write touches a flag only to report an overrun (R140). -/
theorem Engine.writeCmd_flag_cases (e : Engine) (w : Word32) (c : ErrCode) :
    (e.writeCmd w).flag c = e.flag c ∨ (c = .ovr ∧ e.busy = true ∧ (e.writeCmd w).flag c = true) := by
  unfold Engine.writeCmd
  split
  case isTrue hb => exact (e.raise_flag_cases c .ovr).imp_right fun ⟨hc, hf⟩ => ⟨hc, hb, hf⟩
  case isFalse => exact .inl (by cases c <;> rfl)

/-- A command touches a flag only to report a sequence error (R139). -/
theorem commandEffect_flag_cases (i : Instr) (e : Engine) (c : ErrCode) :
    (commandEffect i e).flag c = e.flag c ∨
    (c = .seq ∧ e.ph = .done ∧ ((∃ n, i = .append n) ∨ i = .final) ∧ (commandEffect i e).flag c = true) := by
  have hraise (hi : (∃ n, i = .append n) ∨ i = .final) (hp : e.ph = .done) :
      (e.raise .seq).flag c = e.flag c ∨
      (c = .seq ∧ e.ph = .done ∧ ((∃ n, i = .append n) ∨ i = .final) ∧ (e.raise .seq).flag c = true) :=
    (e.raise_flag_cases c .seq).imp_right fun ⟨hc, hf⟩ => ⟨hc, hp, hi, hf⟩
  obtain ⟨-, hx⟩ | ⟨-, hx⟩ | ⟨n, hi, hp, hx⟩ | ⟨n, -, hp, hx⟩ | ⟨hi, hp, hx⟩ | ⟨-, hp, hx⟩ := commandEffect_cases i e <;>
    rw [hx]
  · exact .inl rfl
  · exact .inl (by cases c <;> rfl)
  · exact hraise (.inl ⟨n, hi⟩) hp
  · rw [e.append_frame n hp]
    exact .inl (by cases c <;> rfl)
  · exact hraise (.inr hi) hp
  · rw [e.finalize_frame hp]
    exact .inl (by cases c <;> rfl)

/-- What makes the next step raise an error (R135): its own condition for each of the four. -/
def State.ErrorCause (s : State) : ErrCode → Prop
  | .op => s.EngineMoves ∧ decode s.engine.cmdl = .illegalOp
  | .cnt => s.EngineMoves ∧ decode s.engine.cmdl = .illegalCnt
  | .seq => s.EngineMoves ∧ s.engine.ph = .done ∧
      ((∃ n, decode s.engine.cmdl = .command (.append n)) ∨ decode s.engine.cmdl = .command .final)
  | .ovr => s.engine.busy = true ∧ ∃ w, s.WritesReg 0x000 w

/-- Everything that one step can do to an error flag. -/
theorem step_flag_cases {s t : State} (h : step s = .next t) (c : ErrCode) :
    t.engine.flag c = s.engine.flag c ∨
    (s.ErrorCause c ∧ t.engine.flag c = true) ∨
    (s.mover = some .reset ∧ t.engine.flag c = false) ∨
    (∃ v, s.WritesReg 0x004 v ∧ t.engine.flag c = (s.engine.flag c && !v.getLsbD c.bit)) := by
  obtain ht | ⟨hm, ht⟩ | ⟨he, hd, ht⟩ | ⟨he, hd, ht⟩ | ⟨i, he, hd, ht⟩ | ⟨w, hw, ht⟩ | ⟨v, hv, ht⟩ | ⟨d, ht⟩ :=
    step_engine_cases h <;> rw [ht]
  · exact .inl rfl
  · exact .inr (.inr (.inl ⟨hm, Engine.reset_flag c⟩))
  · rw [Engine.rejected, Engine.complete_flag]
    exact (s.engine.raise_flag_cases c .op).imp_right fun ⟨hc, hf⟩ => .inl ⟨hc ▸ ⟨he, hd⟩, hf⟩
  · rw [Engine.rejected, Engine.complete_flag]
    exact (s.engine.raise_flag_cases c .cnt).imp_right fun ⟨hc, hf⟩ => .inl ⟨hc ▸ ⟨he, hd⟩, hf⟩
  · rw [Engine.complete_flag]
    refine (commandEffect_flag_cases i s.engine c).imp_right fun ⟨hc, hp, hi, hf⟩ => .inl ⟨hc ▸ ⟨he, hp, ?_⟩, hf⟩
    obtain ⟨n, rfl⟩ | rfl := hi
    · exact .inl ⟨n, hd⟩
    · exact .inr hd
  · exact (s.engine.writeCmd_flag_cases w c).imp_right fun ⟨hc, hb, hf⟩ => .inl ⟨hc ▸ ⟨hb, w, hw⟩, hf⟩
  · exact .inr (.inr (.inr ⟨v, hv, s.engine.clearFlags_flag v c⟩))
  · exact .inl (s.engine.din_flag d c)

/-- Settles O52: of all that a step can do to a flag, only its own cause raises it. -/
theorem errorFlagCauses : Obligations.ErrorFlagCauses := by
  intro s t h c h0 h1
  have hcause : s.ErrorCause c := by
    obtain hs | ⟨hc, -⟩ | ⟨-, ht⟩ | ⟨v, -, ht⟩ := step_flag_cases h c
    · exact nomatch h0.symm.trans (hs.symm.trans h1)
    · exact hc
    · exact nomatch ht.symm.trans h1
    · rw [ht, h0] at h1
      exact nomatch h1
  cases c <;> exact hcause

/-! A flag that is set does not stop a later command (R142). -/

/-- ABSORB neither reads nor writes a flag. -/
theorem Engine.absorbBits_raise (e : Engine) (c : ErrCode) (ms : List Bool) :
    (e.raise c).absorbBits ms = (e.absorbBits ms).raise c := by
  have h := Engine.absorbBits_withAccumulator (e.raise c) e ms
  rw [e.absorbBits_frame ms]
  cases c <;> exact h

theorem Engine.append_raise (e : Engine) (c : ErrCode) (n : Nat) : (e.raise c).append n = (e.append n).raise c := by
  obtain hp | hp : e.ph = .done ∨ e.ph = .accum := by cases e.ph <;> simp
  · rw [e.append_of_done n hp, (e.raise c).append_of_done n (by rw [Engine.raise_ph, hp])]
    cases c <;> rfl
  · rw [e.append_of_accum n hp, (e.raise c).append_of_accum n (by rw [Engine.raise_ph, hp]), Engine.raise_dinl,
      ← Engine.absorbBits_raise]
    cases c <;> rfl

theorem Engine.finalize_raise (e : Engine) (c : ErrCode) : (e.raise c).finalize = e.finalize.raise c := by
  obtain hp | hp : e.ph = .done ∨ e.ph = .accum := by cases e.ph <;> simp
  · rw [e.finalize_of_done hp, (e.raise c).finalize_of_done (by rw [Engine.raise_ph, hp])]
    cases c <;> rfl
  · have hash : (e.raise c).finalHash = e.finalHash :=
      Engine.finalHash_congr (e.raise_h c) (e.raise_w c) (e.raise_nb c) (e.raise_len c)
    rw [e.finalize_frame hp, (e.raise c).finalize_frame (by rw [Engine.raise_ph, hp]), hash]
    cases c <;> rfl

/-- No command reads a flag. -/
theorem commandEffect_raise (i : Instr) (e : Engine) (c : ErrCode) :
    commandEffect i (e.raise c) = (commandEffect i e).raise c := by
  cases i with
  | nop => rfl
  | init => cases c <;> rfl
  | append n => exact e.append_raise c n
  | final => exact e.finalize_raise c

/-- Settles O53: of all that a step can do to a flag, only reset and a STATUS write with its bit clear it; and raising a flag
commutes with every command. -/
theorem errorFlagsAreSticky : Obligations.ErrorFlagsAreSticky := by
  refine ⟨fun s t h c h1 h0 => ?_, fun s i c => ⟨_, exec_eq i s, ?_⟩⟩
  · obtain hs | ⟨-, ht⟩ | ⟨hm, -⟩ | ⟨v, hv, ht⟩ := step_flag_cases h c
    · exact nomatch h0.symm.trans (hs.trans h1)
    · exact nomatch h0.symm.trans ht
    · exact .inl hm
    · rw [ht, h1] at h0
      exact .inr ⟨v, hv, by simpa using h0⟩
  · rw [exec_eq]
    exact congrArg (fun e => Host.Outcome.next { s with engine := e }) (commandEffect_raise i s.engine c)

/-! No stop inside the window (R143, R145). -/

/-- The planned turn of a master without an access left only takes itself off the list (log 3). -/
theorem step_of_host_idle {s : State} {k : Nat} (hm : s.mover = some (.host k))
    (hidle : ∀ m, s.masters[k]? = some m → m.program = []) : step s = .next s.popTurn := by
  rw [step_of_mover hm]
  cases hk : s.masters[k]? with
  | none => simp only [runTurn, hostTurn, State.popTurn_masters, hk]
  | some m => simp only [runTurn, hostTurn, State.popTurn_masters, hk, hidle m hk]

/-- An access in the window is made, and the master goes on with accesses it already had. -/
theorem exists_step_of_accesses {s : State} {k : Nat} {m : Master} {op : HostOp} {rest : List HostOp}
    (ha : s.Accesses k m op rest) (hw : op.inWindow s.engineBase = true) :
    ∃ e m', step s = .next (State.setMaster { s.popTurn with engine := e } k m') ∧
      ∀ x ∈ m'.program, x ∈ m.program := by
  have hp : m.program = op :: rest := ha.2.2
  have hrest : ∀ x ∈ rest, x ∈ m.program := fun x hx => hp ▸ List.mem_cons_of_mem op hx
  cases op with
  | read addr width => exact ⟨_, _, step_of_read ha hw, hrest⟩
  | write addr width v => exact ⟨_, _, step_of_write ha hw, hrest⟩
  | wait =>
    refine ⟨s.engine, _, waitPollsBusy s k m rest ha, fun x hx => ?_⟩
    dsimp only at hx
    split at hx
    · exact hp ▸ hx
    · exact hrest x hx

/-- Settles O46, by who moves: the engine and a reset leave the masters, and a master makes an access in the window. -/
theorem nothingStopsInsideWindow : Obligations.NothingStopsInsideWindow := by
  intro s hin
  cases hm : s.mover with
  | none => exact ⟨s, step_of_no_mover hm, hin⟩
  | some turn =>
    cases turn with
    | reset => exact ⟨resetTurn s.popTurn, step_of_mover hm, hin⟩
    | engine =>
      cases hb : s.engine.busy with
      | false => exact ⟨s.popTurn, step_of_engine_idle hm hb, hin⟩
      | true => exact ⟨_, step_of_engineMoves ⟨hm, hb⟩, hin⟩
    | host k =>
      by_cases hidle : ∀ m, s.masters[k]? = some m → m.program = []
      · exact ⟨s.popTurn, step_of_host_idle hm hidle, hin⟩
      · push Not at hidle
        obtain ⟨m, hk, hp⟩ := hidle
        obtain ⟨op, rest, hp⟩ := List.exists_cons_of_ne_nil hp
        have ha : s.Accesses k m op rest := ⟨hm, hk, hp⟩
        obtain ⟨e, m', hstep, hsub⟩ := exists_step_of_accesses ha (hin.access ha)
        have hin' : State.InWindow { s.popTurn with engine := e } := hin
        exact ⟨_, hstep, hin'.setMaster hk hsub⟩

end Sys2Proof.Machine

/-! PROOFS. The statements about reset (70_reset_and_hazards.md), and about progress (R165, R166): an accepted command
completes, every host program ends, and the boot program of R156 starts a fresh message. -/

namespace Sys2Proof.Machine

/-! Reset. -/

/-- Settles O42: the step is the reset event, whatever the engine was doing. -/
theorem resetEvent : Obligations.ResetEvent := fun _ hm =>
  ⟨_, step_of_mover hm, rfl, rfl, rfl, rfl, rfl, rfl, rfl, rfl, rfl, Engine.reset_flag⟩

/-- Settles O43: reset and INIT leave the same accumulator, which holds the empty message. -/
theorem resetLeavesFreshAccumulator : Obligations.ResetLeavesFreshAccumulator := by
  refine ⟨fun s => ⟨_, exec_eq .init s, rfl, rfl, rfl, rfl, rfl⟩, ?_⟩
  rw [messageDigest_nil]
  exact exec_final_of_fresh (freshAccumulator_of_reset_or_init (.inl rfl))

/-! With no turn planned (log 2). -/

theorem engineMoves_of_no_turns {s : State} (ht : s.turns = []) (hb : s.engine.busy = true) : s.EngineMoves :=
  ⟨by simp only [State.mover, ht, hb, if_true], hb⟩

theorem mover_of_idle_no_turns {s : State} (ht : s.turns = []) (hb : s.engine.busy = false) :
    s.mover = (firstReady s.masters).map .host := by
  simp [State.mover, ht, hb]

/-- With no turn planned everything has ended, or a pending command completes, or an idle engine is accessed. -/
theorem ended_or_moves_of_no_turns {s : State} (ht : s.turns = []) :
    s.Ended ∨ s.EngineMoves ∨ (s.engine.busy = false ∧ ∃ k m op rest, s.Accesses k m op rest) := by
  cases hb : s.engine.busy with
  | true => exact .inr (.inl (engineMoves_of_no_turns ht hb))
  | false =>
    have hm := mover_of_idle_no_turns ht hb
    cases hf : firstReady s.masters with
    | none => exact .inl ⟨ht, firstReady_none hf, hb⟩
    | some k =>
      obtain ⟨m, op, rest, hk, hp⟩ := firstReady_spec hf
      exact .inr (.inr ⟨rfl, k, m, op, rest, by rw [hm, hf]; rfl, hk, hp⟩)

/-! An accepted command completes (R165). -/

/-- Settles O54, by induction on the planned turns: each step takes one off, and with none left the engine moves. -/
theorem acceptedCommandCompletes : Obligations.AcceptedCommandCompletes := by
  intro s
  induction hts : s.turns generalizing s with
  | nil =>
    intro _ hb
    exact ⟨1, _, le_rfl, run_succ (step_of_engineMoves (engineMoves_of_no_turns hts hb)), s.engine.stepped_frame.1⟩
  | cons turn turns ih =>
    intro hin _
    obtain ⟨u, hstep, hin'⟩ := nothingStopsInsideWindow s hin
    cases hb' : u.engine.busy with
    | false => exact ⟨1, u, Nat.le_add_left _ _, run_succ hstep, hb'⟩
    | true =>
      have hts' : u.turns = turns := by rw [(step_turns hstep).1, hts, List.tail_cons]
      obtain ⟨k, t, hk, hrun, ht⟩ := ih u hts' hin' hb'
      exact ⟨k + 1, t, Nat.succ_le_succ hk, (run_succ hstep).trans hrun, ht⟩

/-! Every host program ends (R165, R166). -/

/-- An access of an idle engine uses up one item of the master's program; a `wait` goes on (R66). -/
theorem exists_step_of_accesses_idle {s : State} {k : Nat} {m : Master} {op : HostOp} {rest : List HostOp}
    (ha : s.Accesses k m op rest) (hw : op.inWindow s.engineBase = true) (hb : s.engine.busy = false) :
    ∃ e m', step s = .next (State.setMaster { s.popTurn with engine := e } k m') ∧ m'.program = rest := by
  cases op with
  | read addr width => exact ⟨_, _, step_of_read ha hw, rfl⟩
  | write addr width v => exact ⟨_, _, step_of_write ha hw, rfl⟩
  | wait => exact ⟨s.engine, _, waitPollsBusy s k m rest ha, by simp [hb]⟩

/-- The accesses that all masters have left. -/
def accessesLeft (ms : List Master) : Nat := (ms.map fun m => m.program.length).sum

theorem accessesLeft_set {ms : List Master} {k : Nat} {m m' : Master} {op : HostOp} (hk : ms[k]? = some m)
    (hp : m.program = op :: m'.program) : accessesLeft ms = accessesLeft (ms.set k m') + 1 := by
  induction ms generalizing k with
  | nil => exact nomatch hk
  | cons x xs ih =>
    cases k with
    | zero =>
      obtain rfl : x = m := Option.some.inj hk
      simp [accessesLeft, hp, Nat.add_right_comm]
    | succ k => simpa [accessesLeft, Nat.add_assoc] using ih hk

/-- What is left to do once no turn is planned: an access counts for itself and for the command it may start. -/
def State.workLeft (s : State) : Nat := 2 * accessesLeft s.masters + s.engine.busy.toNat

/-- With no turn planned every step before the end leaves less to do. -/
theorem exists_step_workLeft_lt {s : State} (hin : s.InWindow) (ht : s.turns = []) (hne : ¬ s.Ended) :
    ∃ t, step s = .next t ∧ t.workLeft < s.workLeft := by
  obtain hend | he | ⟨hb, k, m, op, rest, ha⟩ := ended_or_moves_of_no_turns ht
  · exact absurd hend hne
  · refine ⟨_, step_of_engineMoves he, ?_⟩
    simp [State.workLeft, s.engine.stepped_frame.1, he.2]
  · obtain ⟨e, m', hstep, rfl⟩ := exists_step_of_accesses_idle ha (hin.access ha) hb
    obtain ⟨-, hk, hp⟩ := ha
    have hset := accessesLeft_set hk hp
    have hbusy := Bool.toNat_le e.busy
    refine ⟨_, hstep, ?_⟩
    simp only [State.workLeft, State.setMaster_masters, State.setMaster_engine, State.popTurn_masters]
    omega

/-- The planned turns pass (R143, R145). -/
theorem exists_reaches_no_turns {s : State} (hin : s.InWindow) : ∃ t, Reaches s t ∧ t.InWindow ∧ t.turns = [] := by
  induction hts : s.turns generalizing s with
  | nil => exact ⟨s, Reaches.refl s, hin, hts⟩
  | cons turn turns ih =>
    obtain ⟨u, hstep, hin'⟩ := nothingStopsInsideWindow s hin
    obtain ⟨t, hreach, h⟩ := ih hin' (by rw [(step_turns hstep).1, hts, List.tail_cons])
    exact ⟨t, (Reaches.of_step hstep).trans hreach, h⟩

/-- With no turn planned everything ends, by induction on what is left to do. -/
theorem exists_reaches_ended_of_no_turns {s : State} (hin : s.InWindow) (ht : s.turns = []) :
    ∃ t, Reaches s t ∧ t.Ended := by
  induction hn : s.workLeft using Nat.strong_induction_on generalizing s with
  | _ n ih =>
    by_cases hend : s.Ended
    · exact ⟨s, Reaches.refl s, hend⟩
    · obtain ⟨u, hstep, hin'⟩ := nothingStopsInsideWindow s hin
      obtain ⟨u', hstep', hlt⟩ := exists_step_workLeft_lt hin ht hend
      obtain rfl : u = u' := Host.Outcome.next.inj (hstep.symm.trans hstep')
      obtain ⟨t, hreach, h⟩ := ih u.workLeft (hn ▸ hlt) hin' (by rw [(step_turns hstep).1, ht, List.tail_nil]) rfl
      exact ⟨t, (Reaches.of_step hstep).trans hreach, h⟩

theorem exists_reaches_ended {s : State} (hin : s.InWindow) : ∃ t, Reaches s t ∧ t.Ended := by
  obtain ⟨u, hu, hin', ht⟩ := exists_reaches_no_turns hin
  obtain ⟨t, hreach, hend⟩ := exists_reaches_ended_of_no_turns hin' ht
  exact ⟨t, hu.trans hreach, hend⟩

/-- A run keeps the number of masters. -/
theorem Reaches.masters_length {s t : State} (h : Reaches s t) : t.masters.length = s.masters.length := by
  obtain ⟨n, h⟩ := h
  induction n generalizing s with
  | zero => rw [Host.Outcome.next.inj h]
  | succ n ih =>
    obtain ⟨u, hs, h⟩ := coreRun_succ_inv core h
    exact (ih h).trans (step_masters_length hs)

/-- At the end of everything every master's program has a result. -/
theorem State.Ended.resultOf {s : State} (h : s.Ended) {k : Nat} (hk : k < s.masters.length) :
    ∃ r, s.resultOf k = some r := by
  obtain ⟨-, hp, hb⟩ := h
  refine ⟨⟨s.masters[k].reads, s.engine⟩, resultOf_eq_some.2 ⟨?_, hb, rfl⟩⟩
  rw [List.getElem?_eq_getElem hk, ← hp _ (List.getElem_mem hk)]

/-- Settles O55: everything ends, and there every program has a result. -/
theorem hostProgramsEnd : Obligations.HostProgramsEnd := by
  intro s hin
  obtain ⟨t, hreach, hend⟩ := exists_reaches_ended hin
  refine ⟨fun k hk => ?_, hreach.imp fun _ hrun => ⟨t, hrun, hend⟩⟩
  obtain ⟨r, hr⟩ := hend.resultOf (hreach.masters_length ▸ hk)
  exact exists_runResult hreach hr

/-! The boot program (R156). -/

/-- The engine that the boot program leaves: its error flags cleared, and INIT completed. -/
def Engine.booted (e : Engine) : Engine :=
  (commandEffect .init ((e.settled.clearFlags 0x000000F0).latch (encode .init))).complete

theorem Engine.booted_flag (e : Engine) (c : ErrCode) : e.booted.flag c = false := by
  have hclear : e.booted.flag c = (e.settled.clearFlags 0x000000F0).flag c := by cases c <;> rfl
  have hbit : (0x000000F0 : Word32).getLsbD c.bit = true := by cases c <;> rfl
  rw [hclear, Engine.clearFlags_flag, hbit, Bool.not_true, Bool.and_false]

theorem Engine.booted_freshAccumulator (e : Engine) : e.booted.FreshAccumulator := ⟨rfl, rfl, rfl, rfl, rfl⟩

/-- The boot program of the only master ends with the booted engine, whatever turns without a reset are planned. -/
theorem runResult_bootProgram {s : State} (hr : .reset ∉ s.turns) (hm : s.masters = [⟨bootProgram s.engineBase, []⟩]) :
    ∃ n r, runResult 0 n s = some r ∧ r.engine = s.engine.booted := by
  have hs : s.alone s.engine (bootProgram s.engineBase) [] s.turns = s := by rw [State.alone, ← hm]
  obtain ⟨r1, t1, n1, g1⟩ :=
    reaches_wait s (wst s.engineBase 0x000000F0 ++ asmCommand s.engineBase .init) [] s.engine s.turns hr
  obtain ⟨e2, t2, h2, n2, g2⟩ := reaches_write s 0x004 4 (by decide) 0x000000F0 (asmCommand s.engineBase .init)
    ([] ++ r1) s.engine.settled t1 n1
  rw [h2.of_idle s.engine.settled_busy, Engine.writeAt_status] at g2
  obtain ⟨e3, t3, h3, n3, g3⟩ := reaches_command s .init (by decide) [] ([] ++ r1)
    (e := s.engine.settled.clearFlags 0x000000F0) s.engine.settled_busy t2 n2
  obtain ⟨t4, g4⟩ := reaches_ended s ([] ++ r1) e3 t3 n3
  rw [List.append_nil] at g3
  have hall : Reaches s (s.alone e3.settled [] ([] ++ r1) t4) := hs ▸ g1.trans (g2.trans (g3.trans g4))
  have hend : (s.alone e3.settled [] ([] ++ r1) t4).resultOf 0 = some ⟨[] ++ r1, e3.settled⟩ :=
    resultOf_eq_some.2 ⟨rfl, e3.settled_busy, rfl⟩
  obtain ⟨n, hn⟩ := runResult_of_reaches (by rw [hm]; rfl) hr hall hend
  exact ⟨n, _, hn, h3⟩

/-- Settles O59: the program ends with the booted engine, whose flags are clear and whose accumulator is fresh. -/
theorem bootProgramStartsFresh : Obligations.BootProgramStartsFresh := by
  intro s hr hm
  obtain ⟨n, r, hn, he⟩ := runResult_bootProgram hr hm
  refine ⟨n, r, hn, ?_⟩
  rw [he]
  exact ⟨s.engine.booted_flag, s.engine.booted_freshAccumulator⟩

end Sys2Proof.Machine
